-- ==== Sys2Proof/Word.lean ====
section
/-! DEFINITION. The words of the machine: bytes (R13), 16-bit timer values (R20) and the 17-bit
transaction word of the opcode table (R56). Every register value is unsigned (R7). -/

namespace Sys2Proof

/-- A register value, an address or a data byte (R13, R37, R55). -/
abbrev Byte := BitVec 8

/-- A timer counter or latch (R20). -/
abbrev Half := BitVec 16

/-- A packed bus operation `W a[7:0] d[7:0]` (R56). -/
abbrev TransactionWord := BitVec 17

end Sys2Proof
end

