-- ==== Sys2Proof/Config.lean ====
section
/-! DEFINITION. What one instance of the core fixes and never changes: the parameters of R6, as plain
data, the types they are made of, and the key table left open. Their default values are in Sys2Proof/Machine/Reset.lean. -/

namespace Sys2Proof

/-- The key names of R121, column by column in its table's order, and the restore key. -/
inductive KeyName where
  | instDel | returnKey | crsrLr | f7 | f1 | f3 | f5 | crsrUd
  | digit3 | w | a | digit4 | z | s | e | lshift
  | digit5 | r | d | digit6 | c | f | t | x
  | digit7 | y | g | digit8 | b | h | u | v
  | digit9 | i | j | digit0 | m | k | o | n
  | plus | p | l | minus | period | colon | atSign | comma
  | pound | asterisk | semicolon | clrHome | rshift | equals | upArrow | slash
  | digit1 | leftArrow | ctrl | digit2 | space | commodore | q | runStop
  | restore
  deriving DecidableEq, Repr

/-- The codes a host call carries (R57): the key names of R121, and any further codes, numbered. `P_KEYCODE` itself is an
argument of the meanings of KEYDOWN and KEYUP (`keyDownOf`, `keyUpOf`), which this type instantiates; a host's own
code type is told apart by any one-to-one numbering of it. DESIGN CHOICE (log 5). -/
inductive KeyCode where
  | named (name : KeyName)
  | other (code : Nat)
  deriving DecidableEq, Repr

/-- Where a key sits in the matrix: its column, and the row bit or bits it clears (R33). -/
structure KeyPosition where
  column : Fin 8
  rowMask : Byte
  deriving DecidableEq, Repr

/-- `P_KEYTABLE` left open (R6, R33, decision D5): a function from codes to positions that nothing constrains, so that what is
proved of it is true of every such function. DESIGN CHOICE (log 6). -/
opaque Config.keyTable : KeyCode → Option KeyPosition

/-- An instance's key table, as plain data: a list of entries, or the open function (log 6). -/
inductive KeyTable where
  /-- The entries, each a code and its position. -/
  | listed (entries : List (KeyCode × KeyPosition))
  /-- `Config.keyTable`: any function at all. -/
  | uninterpreted
  deriving DecidableEq, Repr

/-- One plane of the Register Bank: a byte for each of the 16 register roles of R16 (R13). The fields are named by
role; the index of a role is said once, in `Reg.index` (Sys2Proof/Decode.lean). -/
structure Bank where
  pra : Byte
  prb : Byte
  ddra : Byte
  ddrb : Byte
  talo : Byte
  tahi : Byte
  tblo : Byte
  tbhi : Byte
  tod10 : Byte
  todsec : Byte
  todmin : Byte
  todhr : Byte
  sdr : Byte
  icr : Byte
  cra : Byte
  crb : Byte
  deriving DecidableEq, Repr

/-- The parameters a model takes as arguments (R6): `P_KEYTABLE` (R33), `P_RESTORE`, `P_INIT_TICK` (R34) and the two planes of
`P_RESET_UNNAMED` (R136). `P_KEYCODE`, a type, is an argument of the keys' meanings instead (`keyDownOf`, `keyUpOf`). -/
structure Params where
  keyTable : KeyTable
  restore : KeyCode
  initTick : Nat
  resetReal : Bank
  resetLatched : Bank
  deriving DecidableEq, Repr

end Sys2Proof
end

