-- ==== Sys2Proof/Syntax.lean ====
section
/-! DEFINITION. The operations of the core as syntax: the 16 register roles (R16), the instructions, one
constructor per row of spec/opcode_table.json (R65), a host call as it arrives at the core, and the assembler lines
of R70 and R71. -/

namespace Sys2Proof

/-- The 16 register roles (R16). -/
inductive Reg where
  | pra  -- Port A data
  | prb  -- Port B data
  | ddra  -- Port A direction
  | ddrb  -- Port B direction
  | talo  -- Timer A low byte
  | tahi  -- Timer A high byte
  | tblo  -- Timer B low byte
  | tbhi  -- Timer B high byte
  | tod10  -- time-of-day tenths
  | todsec  -- time-of-day seconds
  | todmin  -- time-of-day minutes
  | todhr  -- time-of-day hours
  | sdr  -- serial data register
  | icr  -- interrupt control (write) / status (read)
  | cra  -- control register A
  | crb  -- control register B
  deriving DecidableEq, Repr

/-- An operation of the core (R3, R65). A peek or poke carries its whole address byte `a`, mirror nibble included
(R58); a peek also carries the data bits `x` of its word, which go nowhere (R56, R66); a poke carries its data
byte `d` (R55). The five host operations carry the arguments of R57. -/
inductive Instr where
  | peekPra (a x : Byte)
  | peekPrb (a x : Byte)
  | peekDdra (a x : Byte)
  | peekDdrb (a x : Byte)
  | peekTalo (a x : Byte)
  | peekTahi (a x : Byte)
  | peekTblo (a x : Byte)
  | peekTbhi (a x : Byte)
  | peekTod10 (a x : Byte)
  | peekTodsec (a x : Byte)
  | peekTodmin (a x : Byte)
  | peekTodhr (a x : Byte)
  | peekSdr (a x : Byte)
  | peekIcr (a x : Byte)
  | peekCra (a x : Byte)
  | peekCrb (a x : Byte)
  | pokePra (a d : Byte)
  | pokePrb (a d : Byte)
  | pokeDdra (a d : Byte)
  | pokeDdrb (a d : Byte)
  | pokeTalo (a d : Byte)
  | pokeTahi (a d : Byte)
  | pokeTblo (a d : Byte)
  | pokeTbhi (a d : Byte)
  | pokeTod10 (a d : Byte)
  | pokeTodsec (a d : Byte)
  | pokeTodmin (a d : Byte)
  | pokeTodhr (a d : Byte)
  | pokeSdr (a d : Byte)
  | pokeIcr (a d : Byte)
  | pokeCra (a d : Byte)
  | pokeCrb (a d : Byte)
  | update (t : Nat)
  | keyDown (k : KeyCode)
  | keyUp (k : KeyCode)
  | init
  | destroy
  deriving DecidableEq, Repr

/-- What the host asks of the core, before decoding: a bus operation as its transaction word (R56), or one of the
five host operations, which have no word and are told apart by the operation called (R57). -/
inductive Request where
  | bus (word : TransactionWord)
  | update (t : Nat)
  | keyDown (k : KeyCode)
  | keyUp (k : KeyCode)
  | init
  | destroy
  deriving DecidableEq, Repr

/-- A call of the host. `overlapping` says that the call was made while another operation of the same instance was
in progress, concurrently or from within an IRQ or NMI sink, which R50 forbids.
DESIGN CHOICE (log 15): how a breach of R50 is written down. -/
structure Call where
  overlapping : Bool
  request : Request
  deriving DecidableEq, Repr

/-- A byte operand of an assembler line: a hex byte, or a register mnemonic, which stands for its index (R70). -/
inductive AsmByte where
  | hex (v : Byte)
  | mnemonic (r : Reg)
  deriving DecidableEq, Repr

/-- A line of the assembler notation: the operations of R70 and the pseudo-instructions of R71. -/
inductive AsmLine where
  | peek (a : AsmByte)
  | poke (a d : AsmByte)
  | update (t : Nat)
  | keyDown (k : KeyCode)
  | keyUp (k : KeyCode)
  | init
  | destroy
  | setTA (v : Half)
  | setTB (v : Half)
  | readTA
  | readTB
  | iEnable (m : Byte)
  | iDisable (m : Byte)
  | readTod
  | selCol (c : Fin 8)
  deriving DecidableEq, Repr

end Sys2Proof
end

