-- ==== Sys2Proof/Decode.lean ====
section
/-! DEFINITION. Decoding a host call into an instruction, and the encoder, both written from the tables of
30_encoding.md (R56, R58, R65, R70, R71) and spec/opcode_table.json. Decoding is total: every one of the 2^17
transaction words is an instruction (R66). A number that is no 17-bit word is rejected by name. -/

namespace Sys2Proof

/-! ## The register map -/

/-- The register index of a role (R16, the spec's decision D1; UNVERIFIED, log 8). -/
def Reg.index : Reg → BitVec 4
  | .pra => 0x0
  | .prb => 0x1
  | .ddra => 0x2
  | .ddrb => 0x3
  | .talo => 0x4
  | .tahi => 0x5
  | .tblo => 0x6
  | .tbhi => 0x7
  | .tod10 => 0x8
  | .todsec => 0x9
  | .todmin => 0xA
  | .todhr => 0xB
  | .sdr => 0xC
  | .icr => 0xD
  | .cra => 0xE
  | .crb => 0xF

/-- The role at a register index (R16). -/
def Reg.ofIndex (i : BitVec 4) : Reg :=
  match i.toNat with
  | 0x0 => .pra
  | 0x1 => .prb
  | 0x2 => .ddra
  | 0x3 => .ddrb
  | 0x4 => .talo
  | 0x5 => .tahi
  | 0x6 => .tblo
  | 0x7 => .tbhi
  | 0x8 => .tod10
  | 0x9 => .todsec
  | 0xA => .todmin
  | 0xB => .todhr
  | 0xC => .sdr
  | 0xD => .icr
  | 0xE => .cra
  | _ => .crb

/-- The register a bus address reaches: `a mod 16`, the low nibble (R15, R58). No address is rejected (C2). -/
def registerOf (a : Byte) : Reg :=
  Reg.ofIndex (a.extractLsb' 0 4)

/-- Bits a[7:4], which select nothing (R58). -/
def mirrorBits (a : Byte) : BitVec 4 :=
  a.extractLsb' 4 4

/-! ## Fields of the transaction word (R56) -/

/-- Bit 16, W: a poke when it is 1, a peek when it is 0. -/
def isPokeWord (w : TransactionWord) : Bool :=
  w[16]

/-- Bits 15:8, the address byte. -/
def addressOf (w : TransactionWord) : Byte :=
  w.extractLsb' 8 8

/-- Bits 7:0, the data byte. -/
def dataOf (w : TransactionWord) : Byte :=
  w.extractLsb' 0 8

/-! ## Decoding -/

/-- The peek of a register (rows R73 to R88). -/
def peekOf (r : Reg) (a x : Byte) : Instr :=
  match r with
  | .pra => .peekPra a x
  | .prb => .peekPrb a x
  | .ddra => .peekDdra a x
  | .ddrb => .peekDdrb a x
  | .talo => .peekTalo a x
  | .tahi => .peekTahi a x
  | .tblo => .peekTblo a x
  | .tbhi => .peekTbhi a x
  | .tod10 => .peekTod10 a x
  | .todsec => .peekTodsec a x
  | .todmin => .peekTodmin a x
  | .todhr => .peekTodhr a x
  | .sdr => .peekSdr a x
  | .icr => .peekIcr a x
  | .cra => .peekCra a x
  | .crb => .peekCrb a x

/-- The poke of a register (rows R90 to R105). -/
def pokeOf (r : Reg) (a d : Byte) : Instr :=
  match r with
  | .pra => .pokePra a d
  | .prb => .pokePrb a d
  | .ddra => .pokeDdra a d
  | .ddrb => .pokeDdrb a d
  | .talo => .pokeTalo a d
  | .tahi => .pokeTahi a d
  | .tblo => .pokeTblo a d
  | .tbhi => .pokeTbhi a d
  | .tod10 => .pokeTod10 a d
  | .todsec => .pokeTodsec a d
  | .todmin => .pokeTodmin a d
  | .todhr => .pokeTodhr a d
  | .sdr => .pokeSdr a d
  | .icr => .pokeIcr a d
  | .cra => .pokeCra a d
  | .crb => .pokeCrb a d

/-- The instruction of a transaction word (R65): bit 16 and bits 11:8 select the row. -/
def decodeWord (w : TransactionWord) : Instr :=
  if isPokeWord w then pokeOf (registerOf (addressOf w)) (addressOf w) (dataOf w)
  else peekOf (registerOf (addressOf w)) (addressOf w) (dataOf w)

/-- The instruction of a request: a bus operation by its word, a host operation by the operation called (R57). -/
def decode : Request → Instr
  | .bus w => decodeWord w
  | .update t => .update t
  | .keyDown k => .keyDown k
  | .keyUp k => .keyUp k
  | .init => .init
  | .destroy => .destroy

/-- Why a number is not a transaction word. -/
inductive DecodeReject where
  /-- The number has a bit above bit 16; the word has one length, 17 bits (R56). Raised by `decodeNumber` only. Safe. -/
  | widerThanTransactionWord
  deriving DecidableEq, Repr

/-- Decoding of a number: the word it is, or the reason it is none (log 26). -/
def decodeNumber (n : Nat) : Except DecodeReject Instr :=
  if n < 2 ^ 17 then .ok (decodeWord (BitVec.ofNat 17 n)) else .error .widerThanTransactionWord

/-- The host's view of the decoder: the instruction whose bits, numbered as the opcode table numbers them, are `w`.
A row has 17 bits, three whole bytes of which the bits above bit 16 are 0. -/
def decodeTableWord (_nbits w : Nat) : Option Instr :=
  (decodeNumber w).toOption

/-! ## Encoding -/

/-- A row's word: W, the mirror nibble of the address, the row's register index, the data byte
(the patterns `0mmmmrrrrxxxxxxxx` and `1mmmmrrrrdddddddd` of spec/opcode_table.json). -/
def rowWord (poke : Bool) (index : BitVec 4) (a d : Byte) : TransactionWord :=
  BitVec.ofNat 17
    (poke.toNat * 0x10000 + (mirrorBits a).toNat * 0x1000 + index.toNat * 0x100 + d.toNat)

/-- The request that stands for an instruction: the row's word, with the index the row gives it, or the host
operation. -/
def encode : Instr → Request
  | .peekPra a x => .bus (rowWord false 0x0 a x)
  | .peekPrb a x => .bus (rowWord false 0x1 a x)
  | .peekDdra a x => .bus (rowWord false 0x2 a x)
  | .peekDdrb a x => .bus (rowWord false 0x3 a x)
  | .peekTalo a x => .bus (rowWord false 0x4 a x)
  | .peekTahi a x => .bus (rowWord false 0x5 a x)
  | .peekTblo a x => .bus (rowWord false 0x6 a x)
  | .peekTbhi a x => .bus (rowWord false 0x7 a x)
  | .peekTod10 a x => .bus (rowWord false 0x8 a x)
  | .peekTodsec a x => .bus (rowWord false 0x9 a x)
  | .peekTodmin a x => .bus (rowWord false 0xA a x)
  | .peekTodhr a x => .bus (rowWord false 0xB a x)
  | .peekSdr a x => .bus (rowWord false 0xC a x)
  | .peekIcr a x => .bus (rowWord false 0xD a x)
  | .peekCra a x => .bus (rowWord false 0xE a x)
  | .peekCrb a x => .bus (rowWord false 0xF a x)
  | .pokePra a d => .bus (rowWord true 0x0 a d)
  | .pokePrb a d => .bus (rowWord true 0x1 a d)
  | .pokeDdra a d => .bus (rowWord true 0x2 a d)
  | .pokeDdrb a d => .bus (rowWord true 0x3 a d)
  | .pokeTalo a d => .bus (rowWord true 0x4 a d)
  | .pokeTahi a d => .bus (rowWord true 0x5 a d)
  | .pokeTblo a d => .bus (rowWord true 0x6 a d)
  | .pokeTbhi a d => .bus (rowWord true 0x7 a d)
  | .pokeTod10 a d => .bus (rowWord true 0x8 a d)
  | .pokeTodsec a d => .bus (rowWord true 0x9 a d)
  | .pokeTodmin a d => .bus (rowWord true 0xA a d)
  | .pokeTodhr a d => .bus (rowWord true 0xB a d)
  | .pokeSdr a d => .bus (rowWord true 0xC a d)
  | .pokeIcr a d => .bus (rowWord true 0xD a d)
  | .pokeCra a d => .bus (rowWord true 0xE a d)
  | .pokeCrb a d => .bus (rowWord true 0xF a d)
  | .update t => .update t
  | .keyDown k => .keyDown k
  | .keyUp k => .keyUp k
  | .init => .init
  | .destroy => .destroy

/-- The "match" value of an instruction's row of spec/opcode_table.json; a host row has none. -/
def tableMatch : Instr → Option TransactionWord
  | .peekPra _ _ => some 0x00000
  | .peekPrb _ _ => some 0x00100
  | .peekDdra _ _ => some 0x00200
  | .peekDdrb _ _ => some 0x00300
  | .peekTalo _ _ => some 0x00400
  | .peekTahi _ _ => some 0x00500
  | .peekTblo _ _ => some 0x00600
  | .peekTbhi _ _ => some 0x00700
  | .peekTod10 _ _ => some 0x00800
  | .peekTodsec _ _ => some 0x00900
  | .peekTodmin _ _ => some 0x00A00
  | .peekTodhr _ _ => some 0x00B00
  | .peekSdr _ _ => some 0x00C00
  | .peekIcr _ _ => some 0x00D00
  | .peekCra _ _ => some 0x00E00
  | .peekCrb _ _ => some 0x00F00
  | .pokePra _ _ => some 0x10000
  | .pokePrb _ _ => some 0x10100
  | .pokeDdra _ _ => some 0x10200
  | .pokeDdrb _ _ => some 0x10300
  | .pokeTalo _ _ => some 0x10400
  | .pokeTahi _ _ => some 0x10500
  | .pokeTblo _ _ => some 0x10600
  | .pokeTbhi _ _ => some 0x10700
  | .pokeTod10 _ _ => some 0x10800
  | .pokeTodsec _ _ => some 0x10900
  | .pokeTodmin _ _ => some 0x10A00
  | .pokeTodhr _ _ => some 0x10B00
  | .pokeSdr _ _ => some 0x10C00
  | .pokeIcr _ _ => some 0x10D00
  | .pokeCra _ _ => some 0x10E00
  | .pokeCrb _ _ => some 0x10F00
  | .update _ => none
  | .keyDown _ => none
  | .keyUp _ => none
  | .init => none
  | .destroy => none

/-- The "mask" value of every bus row of spec/opcode_table.json (R65). -/
def tableMask : TransactionWord := 0x10F00

/-! ## The assembler notation (R70, R71; the spec's decision D9) -/

/-- The address byte that a register mnemonic stands for: its index (R70). -/
def Reg.address (r : Reg) : Byte :=
  r.index.setWidth 8

/-- The value of a byte operand (R70). -/
def AsmByte.value : AsmByte → Byte
  | .hex v => v
  | .mnemonic r => r.address

/-- The packing of R56: `word = W * 0x10000 + a * 0x100 + d`. -/
def packWord (poke : Bool) (a d : Byte) : TransactionWord :=
  BitVec.ofNat 17 (poke.toNat * 0x10000 + a.toNat * 0x100 + d.toNat)

/-- A PEEK line assembles to its word with the data bits written as 0 (R70). -/
def peekRequest (a : Byte) : Request :=
  .bus (packWord false a 0)

/-- A POKE line assembles to its word (R70). -/
def pokeRequest (a d : Byte) : Request :=
  .bus (packWord true a d)

/-- Is the line well formed? `IENABLE m` and `IDISABLE m` need m <= 0x7F (R71). -/
def AsmLine.wf : AsmLine → Bool
  | .iEnable m => m.toNat ≤ 0x7F
  | .iDisable m => m.toNat ≤ 0x7F
  | _ => true

/-- The operations a line stands for, in order (R70, R71). -/
def AsmLine.assemble : AsmLine → List Request
  | .peek a => [peekRequest a.value]
  | .poke a d => [pokeRequest a.value d.value]
  | .update t => [.update t]
  | .keyDown k => [.keyDown k]
  | .keyUp k => [.keyUp k]
  | .init => [.init]
  | .destroy => [.destroy]
  | .setTA v => [pokeRequest Reg.talo.address (v.extractLsb' 0 8), pokeRequest Reg.tahi.address (v.extractLsb' 8 8)]
  | .setTB v => [pokeRequest Reg.tblo.address (v.extractLsb' 0 8), pokeRequest Reg.tbhi.address (v.extractLsb' 8 8)]
  | .readTA => [peekRequest Reg.talo.address, peekRequest Reg.tahi.address]
  | .readTB => [peekRequest Reg.tblo.address, peekRequest Reg.tbhi.address]
  | .iEnable m => [pokeRequest Reg.icr.address (0x80 + m)]
  | .iDisable m => [pokeRequest Reg.icr.address m]
  | .readTod =>
    [peekRequest Reg.todhr.address, peekRequest Reg.todmin.address, peekRequest Reg.todsec.address,
      peekRequest Reg.tod10.address]
  | .selCol c => [pokeRequest Reg.pra.address (~~~(1#8 <<< c.val))]

end Sys2Proof
end

