-- ==== Sys2Proof/Machine/Reset.lean ====
section
/-! DEFINITION. The default parameters of the spec (R6, R121, decisions D5, D6, D10) and the values `init` sets (R136), said
once: `State.reset` and the meaning of INIT both use them. -/

namespace Sys2Proof.Machine

/-- The row masks of R121's eight table columns: `1 << r`. -/
def rowMasks : List Byte :=
  [0x01, 0x02, 0x04, 0x08, 0x10, 0x20, 0x40, 0x80]

/-- The entries of one matrix column, its keys in row order (R121). -/
def columnKeys (c : Fin 8) (keys : List KeyName) : List (KeyCode × KeyPosition) :=
  List.zipWith (fun key mask => (.named key, ⟨c, mask⟩)) keys rowMasks

/-- The default `P_KEYTABLE`: the Commodore 64 matrix of R121 (PRESUMED by the spec itself, decision D5, log 7). -/
def defaultKeyTable : List (KeyCode × KeyPosition) :=
  columnKeys 0 [.instDel, .returnKey, .crsrLr, .f7, .f1, .f3, .f5, .crsrUd]
    ++ columnKeys 1 [.digit3, .w, .a, .digit4, .z, .s, .e, .lshift]
    ++ columnKeys 2 [.digit5, .r, .d, .digit6, .c, .f, .t, .x]
    ++ columnKeys 3 [.digit7, .y, .g, .digit8, .b, .h, .u, .v]
    ++ columnKeys 4 [.digit9, .i, .j, .digit0, .m, .k, .o, .n]
    ++ columnKeys 5 [.plus, .p, .l, .minus, .period, .colon, .atSign, .comma]
    ++ columnKeys 6 [.pound, .asterisk, .semicolon, .clrHome, .rshift, .equals, .upArrow, .slash]
    ++ columnKeys 7 [.digit1, .leftArrow, .ctrl, .digit2, .space, .commodore, .q, .runStop]

/-- A plane of 16 zero bytes. -/
def zeroBank : Bank :=
  { pra := 0, prb := 0, ddra := 0, ddrb := 0, talo := 0, tahi := 0, tblo := 0, tbhi := 0,
    tod10 := 0, todsec := 0, todmin := 0, todhr := 0, sdr := 0, icr := 0, cra := 0, crb := 0 }

/-- The five parameters at the spec's defaults: the table of R121, `P_RESTORE = RESTORE`, `P_INIT_TICK = 0`,
`P_RESET_UNNAMED` all 0x00 (R6). DESIGN CHOICE (log 3): the spec leaves them open and gives these defaults. -/
def defaultParams : Params :=
  { keyTable := .listed defaultKeyTable
    restore := .named .restore
    initTick := 0
    resetReal := zeroBank
    resetLatched := zeroBank }

/-- The live plane after `init`: the unnamed bytes from `P_RESET_UNNAMED`, the three the source names over them
(R136: "all outputs", "all inputs", "all released"). -/
def resetReal (p : Params) : Bank :=
  { p.resetReal with ddra := 0xFF, ddrb := 0x00, prb := 0xFF }

/-- The latched plane after `init` (R136). -/
def resetLatched (p : Params) : Bank :=
  p.resetLatched

/-- The interrupt status after `init` (R28, R136). -/
def resetIsr : Byte :=
  0x00

/-- The keyboard bitmap after `init`: all released (R136). -/
def resetKbd : Vector Byte 8 :=
  Vector.replicate 8 0xFF

end Sys2Proof.Machine
end

