-- ==== Sys2Proof/Machine/State.lean ====
section
/-! DEFINITION. The state of one core instance as plain data: the six fields of R12, and beside them what the spec gives an
instance or an operation (parameters R6, outputs R35, the delivered byte R8) and the model's own fields (the host's
pending calls, where the instance stands between `init` and `destroy`). -/

namespace Sys2Proof.Machine

/-- Where an instance stands (R137, R138, decision D16). DESIGN CHOICE (log 14): the model's own field. -/
inductive Life where
  /-- `init` was never called: there is no state yet. -/
  | uninitialised
  /-- After `init`. -/
  | live
  /-- After `destroy`. -/
  | ended
  deriving DecidableEq, Repr

/-- An event the core emits (R8, R35). -/
inductive Event where
  | irq
  | nmi
  deriving DecidableEq, Repr

/-- Why the machine stops with a fault: never. "No operation of the core raises a synchronous exception or returns an
error" (R122), so the type has no constructor (log 27). -/
inductive Fault where
  deriving DecidableEq, Repr

/-- Why a call has no meaning. Each but the first is a breach of the host's duties, refused by the spec's own decision. -/
inductive Refusal where
  /-- Raised by an arm of `exec` whose instruction has no meaning yet; none is left. Safe. -/
  | notModelled (mnemonic : String)
  /-- Raised by UPDATE with a tick below the baseline (R108, D7). Safe. -/
  | tickWentBackwards
  /-- Raised by every operation but INIT before the first INIT (R138, D16). Safe. -/
  | notInitialised
  /-- Raised by every operation but INIT after DESTROY (R137, D16). Safe. -/
  | instanceEnded
  /-- Raised by `step` for a call made while another one was in progress (R50, D20). Safe. -/
  | overlappingCall
  deriving DecidableEq, Repr

/-- One core instance. -/
structure State where
  /-- The live register plane (R13). -/
  real : Bank
  /-- The snapshot register plane: timer reload values and the frozen time of day (R13, R17). -/
  latched : Bank
  /-- The interrupt status snapshot (R27). -/
  isr : Byte
  /-- The TOD freeze flag (R31). -/
  todLatched : Bool
  /-- The keyboard column bitmaps, 1 = released (R32). -/
  kbd : Vector Byte 8
  /-- The tick baseline of the previous `update` (R34). -/
  lastTick : Nat
  /-- The instance's parameters, constant (R6, R33; log 4). -/
  params : Params
  /-- The events of the operation last run, in order (R35; log 12). -/
  outputs : List Event
  /-- The byte the operation last run delivered: some byte after a peek, none otherwise (R8, R57; log 13). -/
  result : Option Byte
  /-- Where the instance stands between `init` and `destroy` (log 14). -/
  life : Life
  /-- The host's calls still to run, the next one first (R11; log 1). -/
  pending : List Call
  deriving DecidableEq, Repr

/-- The machine right after `init` under the default parameters (R135, R136), with no call pending. -/
def State.reset : State :=
  { real := resetReal defaultParams
    latched := resetLatched defaultParams
    isr := resetIsr
    todLatched := false
    kbd := resetKbd
    lastTick := defaultParams.initTick
    params := defaultParams
    outputs := []
    result := none
    life := .live
    pending := [] }

end Sys2Proof.Machine
end

