-- ==== Sys2Proof/Machine/Ops.lean ====
section
/-! DEFINITION. The named operations over an instance: the six primitives of the Register Bank (R14), the other fields'
writers, the events (R8, R35), delivering a byte (R8), and running an operation on a live instance (R137, R138).
The core has no memory beside its registers (R37), so there is no memory operation. -/

namespace Sys2Proof.Machine

/-! ## The Register Bank -/

/-- The cell of a role in one plane. -/
def bankGet (b : Bank) : Reg → Byte
  | .pra => b.pra
  | .prb => b.prb
  | .ddra => b.ddra
  | .ddrb => b.ddrb
  | .talo => b.talo
  | .tahi => b.tahi
  | .tblo => b.tblo
  | .tbhi => b.tbhi
  | .tod10 => b.tod10
  | .todsec => b.todsec
  | .todmin => b.todmin
  | .todhr => b.todhr
  | .sdr => b.sdr
  | .icr => b.icr
  | .cra => b.cra
  | .crb => b.crb

/-- A plane with one cell replaced. -/
def bankSet (b : Bank) (r : Reg) (v : Byte) : Bank :=
  match r with
  | .pra => { b with pra := v }
  | .prb => { b with prb := v }
  | .ddra => { b with ddra := v }
  | .ddrb => { b with ddrb := v }
  | .talo => { b with talo := v }
  | .tahi => { b with tahi := v }
  | .tblo => { b with tblo := v }
  | .tbhi => { b with tbhi := v }
  | .tod10 => { b with tod10 := v }
  | .todsec => { b with todsec := v }
  | .todmin => { b with todmin := v }
  | .todhr => { b with todhr := v }
  | .sdr => { b with sdr := v }
  | .icr => { b with icr := v }
  | .cra => { b with cra := v }
  | .crb => { b with crb := v }

/-- `getReal(r)` (R14). -/
def getReal (s : State) (r : Reg) : Byte :=
  bankGet s.real r

/-- `getLatched(r)` (R14). -/
def getLatched (s : State) (r : Reg) : Byte :=
  bankGet s.latched r

/-- `setReal(r, v)` (R14). -/
def setReal (r : Reg) (v : Byte) (s : State) : State :=
  { s with real := bankSet s.real r v }

/-- `setLatched(r, v)` (R14). -/
def setLatched (r : Reg) (v : Byte) (s : State) : State :=
  { s with latched := bankSet s.latched r v }

/-- `copyLatchToReal(r)` (R14). -/
def copyLatchToReal (r : Reg) (s : State) : State :=
  setReal r (getLatched s r) s

/-- `copyRealToLatch(r)` (R14). -/
def copyRealToLatch (r : Reg) (s : State) : State :=
  setLatched r (getReal s r) s

/-! ## The other fields -/

/-- Writes the interrupt status snapshot (R27). -/
def setIsr (v : Byte) (s : State) : State :=
  { s with isr := v }

/-- Writes the TOD freeze flag (R31). -/
def setTodLatched (b : Bool) (s : State) : State :=
  { s with todLatched := b }

/-- Writes one keyboard column (R32). -/
def setColumn (c : Fin 8) (v : Byte) (s : State) : State :=
  { s with kbd := s.kbd.set c v }

/-- Writes the tick baseline (R34). -/
def setLastTick (t : Nat) (s : State) : State :=
  { s with lastTick := t }

/-- Writes where the instance stands (R137). -/
def setLife (l : Life) (s : State) : State :=
  { s with life := l }

/-- Takes the first pending call off (R11). -/
def setPending (cs : List Call) (s : State) : State :=
  { s with pending := cs }

/-! ## Outputs -/

/-- `emit`: append one event to the output of the current operation (R8, R35). -/
def emit (e : Event) (s : State) : State :=
  { s with outputs := s.outputs ++ [e] }

/-- The master bit of `isr`, "interrupt line asserted" (R27). -/
def masterBit : Byte :=
  0x80

/-- Interrupt delivery, the core's side of it: set the master bit, emit one IRQ (R110 step c). The core saves
nothing and selects no vector (R128); there is no return from it (R129). -/
def assertIrq (s : State) : State :=
  emit .irq (setIsr (s.isr ||| masterBit) s)

/-- The restore key's NMI: one event, no status bit, no mask (R119, R125). -/
def assertNmi (s : State) : State :=
  emit .nmi s

/-- `return v`: the byte a peek delivers (R8). -/
def deliver (v : Byte) (s : State) : State :=
  { s with result := some v }

/-! ## Running an operation -/

/-- The start of an operation: its output is empty and it has delivered nothing (R35). -/
def startOperation (s : State) : State :=
  { s with outputs := [], result := none }

/-- Runs an operation's body on a live instance; refuses it before `init` and after `destroy` (R137, R138). -/
def onLive (s : State) (body : State → Host.Outcome State Fault Refusal) : Host.Outcome State Fault Refusal :=
  match s.life with
  | .live => body (startOperation s)
  | .uninitialised => .refused .notInitialised
  | .ended => .refused .instanceEnded

/-- A call that overlaps another one of the same instance may not be admitted (R50). -/
def admits (c : Call) : Bool :=
  !c.overlapping

end Sys2Proof.Machine
end

