-- ==== Sys2Proof/Machine/Operands.lean ====
section
/-! DEFINITION. The operand forms and field views: 16-bit values of two bytes (R8, R20), the timers' registers and
counters (R20), the fields of the control registers (R21, R24, R25, R63), the direction-masked merge of the
ports (R90, R91), the column selection of Port A (R120) and the tick delta (R108). -/

namespace Sys2Proof.Machine

/-! ## Two-byte values (R8, R20) -/

/-- `u16(hi, lo) = zext_16(hi) * 256 + zext_16(lo)`: the high byte in bits 15:8. -/
def u16 (hi lo : Byte) : Half :=
  hi.setWidth 16 * 256 + lo.setWidth 16

/-- `v[7:0]`. -/
def lowByte (v : Half) : Byte :=
  v.extractLsb' 0 8

/-- `v[15:8]`. -/
def highByte (v : Half) : Byte :=
  v.extractLsb' 8 8

/-! ## The timers' registers and counters (R20) -/

/-- Timer A and Timer B. -/
inductive Timer where
  | a
  | b
  deriving DecidableEq, Repr

/-- `LO(T)`. -/
def loReg : Timer → Reg
  | .a => .talo
  | .b => .tblo

/-- `HI(T)`. -/
def hiReg : Timer → Reg
  | .a => .tahi
  | .b => .tbhi

/-- `CR(T)`. -/
def crReg : Timer → Reg
  | .a => .cra
  | .b => .crb

/-- `counter(T)`: the pair in the real plane. -/
def counter (T : Timer) (s : State) : Half :=
  u16 (getReal s (hiReg T)) (getReal s (loReg T))

/-- `latch(T)`: the pair in the latched plane. -/
def latch (T : Timer) (s : State) : Half :=
  u16 (getLatched s (hiReg T)) (getLatched s (loReg T))

/-- `setCounter(T, v)`. -/
def setCounter (T : Timer) (v : Half) (s : State) : State :=
  setReal (hiReg T) (highByte v) (setReal (loReg T) (lowByte v) s)

/-! ## Control register fields (R21, R24, R25; the bit positions are the spec's decision D2, UNVERIFIED, log 9) -/

/-- START, bit 0: the timer runs (R21). -/
def startBit (cr : Byte) : Bool :=
  cr[0]

/-- RUNMODE, bit 3: one-shot when it is 1, continuous when it is 0 (R21). -/
def oneShotBit (cr : Byte) : Bool :=
  cr[3]

/-- LOAD, bit 4: force-reload when poked (R24). -/
def loadBit (cr : Byte) : Bool :=
  cr[4]

/-- The control byte with START cleared (R110 step b). -/
def clearStart (cr : Byte) : Byte :=
  cr &&& 0xFE

/-- INMODE of CRA, bit 5: the external pulse pin when it is 1, the system-clock delta when it is 0 (R24, R63). -/
def pulsePinA (cra : Byte) : Bool :=
  cra[5]

/-- The input sources of Timer B (R63). -/
inductive Source where
  /-- The system-clock delta. -/
  | ticks
  /-- The external pulse pin, unimplemented (R5). -/
  | pulsePin
  /-- Timer A's underflow of the same `update`. -/
  | cascade
  /-- Pulse pin and cascade, unimplemented (R63). -/
  | pulsePinAndCascade
  deriving DecidableEq, Repr

/-- CRB's input source, bits 6:5 (R25, R63). -/
def sourceB (crb : Byte) : Source :=
  match crb[6], crb[5] with
  | false, false => .ticks
  | false, true => .pulsePin
  | true, false => .cascade
  | true, true => .pulsePinAndCascade

/-! ## Ports (direction 1 = output: the spec's decision D4, UNVERIFIED, log 11) -/

/-- The direction-masked write: output bits take the new value, input bits keep the old one (R90, R91). -/
def directionMerge (direction old d : Byte) : Byte :=
  (d &&& direction) ||| (old &&& ~~~direction)

/-- Column i is driven low: its Port A bit is an output and holds 0 (R120). -/
def columnSelected (s : State) (i : Fin 8) : Bool :=
  (getReal s .ddra).getLsbD i && !(getReal s .pra).getLsbD i

/-! ## Keys and ticks -/

/-- `P_KEYTABLE(k)` (R33): the first entry of a listed table for the code, or the open function (log 6). -/
def keyPosition (p : Params) (k : KeyCode) : Option KeyPosition :=
  match p.keyTable with
  | .listed entries => entries.lookup k
  | .uninterpreted => Config.keyTable k

/-- The tick delta of `update(t)` (R108). -/
def tickDelta (s : State) (t : Nat) : Nat :=
  t - s.lastTick

end Sys2Proof.Machine
end

