-- ==== Sys2Proof/Machine/Keyboard.lean ====
section
/-! DEFINITION. The keyboard matrix encoder: the scan (R120), KEYDOWN (R117) and KEYUP (R118) with the restore key
(R119). -/

namespace Sys2Proof.Machine

/-- The matrix columns in the order the scan visits them (R120). -/
def columns : List (Fin 8) :=
  [0, 1, 2, 3, 4, 5, 6, 7]

/-- One visit of the scan: a column driven low is ANDed in, another one is left out (R120). -/
def scanColumn (s : State) (acc : Byte) (i : Fin 8) : Byte :=
  if columnSelected s i then acc &&& s.kbd[i] else acc

/-- `scan()`: all ones, ANDed with the bitmap of every selected column (R120). -/
def scan (s : State) : Byte :=
  columns.foldl (scanColumn s) 0xFF

/-- Clears the key's row bits: pressed (R117). -/
def pressKey (pos : KeyPosition) (s : State) : State :=
  setColumn pos.column (s.kbd[pos.column] &&& ~~~pos.rowMask) s

/-- Sets the key's row bits: released (R118). -/
def releaseKey (pos : KeyPosition) (s : State) : State :=
  setColumn pos.column (s.kbd[pos.column] ||| pos.rowMask) s

/-- `skip` for a code that is neither in the table nor the restore code (R117, R118, decision D13; log 21). -/
def unknownKey (s : State) : State :=
  s

/-- `skip` for the release of the restore key (R118, R119, decision D14; log 21). -/
def restoreReleased (s : State) : State :=
  s

/-- `keyDown(k)` (R117) for any key code type `K`, table and restore code: `P_KEYCODE`, `P_KEYTABLE` and `P_RESTORE` are
arguments (R6, decision D5). -/
def keyDownOf {K : Type} [DecidableEq K] (table : K → Option KeyPosition) (restore k : K) (s : State) : State :=
  if k = restore then assertNmi s
  else match table k with
    | some pos => pressKey pos s
    | none => unknownKey s

/-- `keyUp(k)` (R118), with the same arguments. -/
def keyUpOf {K : Type} [DecidableEq K] (table : K → Option KeyPosition) (restore k : K) (s : State) : State :=
  if k = restore then restoreReleased s
  else match table k with
    | some pos => releaseKey pos s
    | none => unknownKey s

/-- `keyDown(k)` at the instance's own arguments. -/
def keyDownBody (k : KeyCode) (s : State) : State :=
  keyDownOf (keyPosition s.params) s.params.restore k s

/-- `keyUp(k)` at the instance's own arguments. -/
def keyUpBody (k : KeyCode) (s : State) : State :=
  keyUpOf (keyPosition s.params) s.params.restore k s

/-- KEYDOWN k (R117). -/
def execKeyDown (k : KeyCode) (s : State) : Host.Outcome State Fault Refusal :=
  onLive s fun s => .next (keyDownBody k s)

/-- KEYUP k (R118). -/
def execKeyUp (k : KeyCode) (s : State) : Host.Outcome State Fault Refusal :=
  onLive s fun s => .next (keyUpBody k s)

end Sys2Proof.Machine
end

