-- ==== Sys2Proof/Machine/BusRead.lean ====
section
/-! DEFINITION. The bus reads: one meaning for the peek of each register (R72 to R88). -/

namespace Sys2Proof.Machine

/-- "return the real register verbatim" (R72). -/
def peekReal (r : Reg) (s : State) : State :=
  deliver (getReal s r) s

/-- A TOD register as the flag directs: frozen or live (R31, R81 to R84). -/
def todValue (r : Reg) (s : State) : Byte :=
  if s.todLatched then getLatched s r else getReal s r

/-- The snapshot an hours read takes: four copies, then the flag (R84). It is taken on every such read (D18, log 19). -/
def latchTod (s : State) : State :=
  setTodLatched true (copyRealToLatch .tod10 (copyRealToLatch .todsec (copyRealToLatch .todmin (copyRealToLatch .todhr s))))

/-- The body of the tenths read: deliver per flag, then clear the flag (R81). -/
def peekTenths (s : State) : State :=
  setTodLatched false (deliver (todValue .tod10 s) s)

/-- The body of the hours read: take the snapshot, then deliver per flag, which is now true (R84). -/
def peekHours (s : State) : State :=
  deliver (todValue .todhr (latchTod s)) (latchTod s)

/-- PEEK PRA (R73). -/
def execPeekPra (s : State) : Host.Outcome State Fault Refusal :=
  onLive s fun s => .next (peekReal .pra s)

/-- PEEK PRB (R74): the keyboard scan; `real[PRB]` and `real[DDRB]` are not read. -/
def execPeekPrb (s : State) : Host.Outcome State Fault Refusal :=
  onLive s fun s => .next (deliver (scan s) s)

/-- PEEK DDRA (R75). -/
def execPeekDdra (s : State) : Host.Outcome State Fault Refusal :=
  onLive s fun s => .next (peekReal .ddra s)

/-- PEEK DDRB (R76). -/
def execPeekDdrb (s : State) : Host.Outcome State Fault Refusal :=
  onLive s fun s => .next (peekReal .ddrb s)

/-- PEEK TALO (R77). -/
def execPeekTalo (s : State) : Host.Outcome State Fault Refusal :=
  onLive s fun s => .next (peekReal .talo s)

/-- PEEK TAHI (R78). -/
def execPeekTahi (s : State) : Host.Outcome State Fault Refusal :=
  onLive s fun s => .next (peekReal .tahi s)

/-- PEEK TBLO (R79). -/
def execPeekTblo (s : State) : Host.Outcome State Fault Refusal :=
  onLive s fun s => .next (peekReal .tblo s)

/-- PEEK TBHI (R80). -/
def execPeekTbhi (s : State) : Host.Outcome State Fault Refusal :=
  onLive s fun s => .next (peekReal .tbhi s)

/-- PEEK TOD10 (R81): per flag, then unfreeze. -/
def execPeekTod10 (s : State) : Host.Outcome State Fault Refusal :=
  onLive s fun s => .next (peekTenths s)

/-- PEEK TODSEC (R82). -/
def execPeekTodsec (s : State) : Host.Outcome State Fault Refusal :=
  onLive s fun s => .next (deliver (todValue .todsec s) s)

/-- PEEK TODMIN (R83). -/
def execPeekTodmin (s : State) : Host.Outcome State Fault Refusal :=
  onLive s fun s => .next (deliver (todValue .todmin s) s)

/-- PEEK TODHR (R84): snapshot and freeze. -/
def execPeekTodhr (s : State) : Host.Outcome State Fault Refusal :=
  onLive s fun s => .next (peekHours s)

/-- PEEK SDR (R85). -/
def execPeekSdr (s : State) : Host.Outcome State Fault Refusal :=
  onLive s fun s => .next (peekReal .sdr s)

/-- PEEK ICR (R86): the status, not the mask, and not cleared (log 23). -/
def execPeekIcr (s : State) : Host.Outcome State Fault Refusal :=
  onLive s fun s => .next (deliver s.isr s)

/-- PEEK CRA (R87). -/
def execPeekCra (s : State) : Host.Outcome State Fault Refusal :=
  onLive s fun s => .next (peekReal .cra s)

/-- PEEK CRB (R88). -/
def execPeekCrb (s : State) : Host.Outcome State Fault Refusal :=
  onLive s fun s => .next (peekReal .crb s)

end Sys2Proof.Machine
end

