-- ==== Sys2Proof/Machine/Flags.lean ====
section
/-! DEFINITION. The status and mask flags of the interrupt control register (R27 to R30, R103) and the underflow test of
the countdown (R109). The bit positions are the spec's decision D3 (UNVERIFIED, log 10). -/

namespace Sys2Proof.Machine

/-- A timer's bit in `isr` and in the enable mask (R27, R30). -/
def statusBit : Timer → Byte
  | .a => 0x01
  | .b => 0x02

/-- Sets a timer's underflow bit in `isr` (R110 step a). -/
def setStatus (T : Timer) (s : State) : State :=
  setIsr (s.isr ||| statusBit T) s

/-- Is the timer's interrupt enabled in the mask, which `real[ICR]` holds (R29, R30)? -/
def maskEnables (s : State) (T : Timer) : Bool :=
  getReal s .icr &&& statusBit T != 0

/-- The masked blend of an ICR poke: fill is bit 7, select bits 6:0; bit 7 of the mask stays (R60, R103). -/
def maskBlend (old d : Byte) : Byte :=
  if d[7] then old ||| (d &&& 0x7F) else old &&& ~~~(d &&& 0x7F)

/-- The countdown's wrapping subtraction (R109 step 3, R115). -/
def countdown (tval : Half) (n : Nat) : Half :=
  tval - BitVec.ofNat 16 n

/-- "the subtraction wrapped past zero" (R109 step 4): the new value is above the old one. -/
def wrapped (tval newval : Half) : Bool :=
  tval < newval

end Sys2Proof.Machine
end

