-- ==== Sys2Proof/Machine/BusWrite.lean ====
section
/-! DEFINITION. The bus writes: one meaning for the poke of each register (R89 to R105). -/

namespace Sys2Proof.Machine

/-- "write the real register verbatim" (R89). -/
def pokeReal (r : Reg) (d : Byte) (s : State) : State :=
  setReal r d s

/-- A timer byte goes to both planes: it arms the reload value and changes the running count (R94 to R97). -/
def pokeTimerByte (r : Reg) (d : Byte) (s : State) : State :=
  setLatched r d (setReal r d s)

/-- A port write: only the bits its direction register marks as outputs change (R90, R91). -/
def pokePort (port direction : Reg) (d : Byte) (s : State) : State :=
  setReal port (directionMerge (getReal s direction) (getReal s port) d) s

/-- The masked bit blend of the enable mask (R103). -/
def pokeMask (d : Byte) (s : State) : State :=
  setReal .icr (maskBlend (getReal s .icr) d) s

/-- Force-reload: the latched bytes into the real ones, low byte first (R104, R105). -/
def forceReload (T : Timer) (s : State) : State :=
  copyLatchToReal (hiReg T) (copyLatchToReal (loReg T) s)

/-- A control register write: stored whole, then a force-reload if the byte's LOAD bit is 1, whatever the run state
(R104, R105, R106). -/
def pokeControl (T : Timer) (d : Byte) (s : State) : State :=
  if loadBit d then forceReload T (setReal (crReg T) d s) else setReal (crReg T) d s

/-- POKE PRA (R90). -/
def execPokePra (d : Byte) (s : State) : Host.Outcome State Fault Refusal :=
  onLive s fun s => .next (pokePort .pra .ddra d s)

/-- POKE PRB (R91). -/
def execPokePrb (d : Byte) (s : State) : Host.Outcome State Fault Refusal :=
  onLive s fun s => .next (pokePort .prb .ddrb d s)

/-- POKE DDRA (R92). -/
def execPokeDdra (d : Byte) (s : State) : Host.Outcome State Fault Refusal :=
  onLive s fun s => .next (pokeReal .ddra d s)

/-- POKE DDRB (R93). -/
def execPokeDdrb (d : Byte) (s : State) : Host.Outcome State Fault Refusal :=
  onLive s fun s => .next (pokeReal .ddrb d s)

/-- POKE TALO (R94). -/
def execPokeTalo (d : Byte) (s : State) : Host.Outcome State Fault Refusal :=
  onLive s fun s => .next (pokeTimerByte .talo d s)

/-- POKE TAHI (R95). -/
def execPokeTahi (d : Byte) (s : State) : Host.Outcome State Fault Refusal :=
  onLive s fun s => .next (pokeTimerByte .tahi d s)

/-- POKE TBLO (R96). -/
def execPokeTblo (d : Byte) (s : State) : Host.Outcome State Fault Refusal :=
  onLive s fun s => .next (pokeTimerByte .tblo d s)

/-- POKE TBHI (R97). -/
def execPokeTbhi (d : Byte) (s : State) : Host.Outcome State Fault Refusal :=
  onLive s fun s => .next (pokeTimerByte .tbhi d s)

/-- POKE TOD10 (R98). -/
def execPokeTod10 (d : Byte) (s : State) : Host.Outcome State Fault Refusal :=
  onLive s fun s => .next (pokeReal .tod10 d s)

/-- POKE TODSEC (R99). -/
def execPokeTodsec (d : Byte) (s : State) : Host.Outcome State Fault Refusal :=
  onLive s fun s => .next (pokeReal .todsec d s)

/-- POKE TODMIN (R100). -/
def execPokeTodmin (d : Byte) (s : State) : Host.Outcome State Fault Refusal :=
  onLive s fun s => .next (pokeReal .todmin d s)

/-- POKE TODHR (R101). -/
def execPokeTodhr (d : Byte) (s : State) : Host.Outcome State Fault Refusal :=
  onLive s fun s => .next (pokeReal .todhr d s)

/-- POKE SDR (R102). -/
def execPokeSdr (d : Byte) (s : State) : Host.Outcome State Fault Refusal :=
  onLive s fun s => .next (pokeReal .sdr d s)

/-- POKE ICR (R103). -/
def execPokeIcr (d : Byte) (s : State) : Host.Outcome State Fault Refusal :=
  onLive s fun s => .next (pokeMask d s)

/-- POKE CRA (R104). -/
def execPokeCra (d : Byte) (s : State) : Host.Outcome State Fault Refusal :=
  onLive s fun s => .next (pokeControl .a d s)

/-- POKE CRB (R105). -/
def execPokeCrb (d : Byte) (s : State) : Host.Outcome State Fault Refusal :=
  onLive s fun s => .next (pokeControl .b d s)

end Sys2Proof.Machine
end

