-- ==== Sys2Proof/Machine/Lifecycle.lean ====
section
/-! DEFINITION. INIT (R135, R136) and DESTROY (R137). -/

namespace Sys2Proof.Machine

/-- The state `init` leaves: every field of R12 at its reset value; the parameters stay (R33, R135), and so do the
host's calls still to come. -/
def initBody (s : State) : State :=
  { s with
    real := resetReal s.params
    latched := resetLatched s.params
    isr := resetIsr
    todLatched := false
    kbd := resetKbd
    lastTick := s.params.initTick
    life := .live }

/-- INIT (R135): runs at any time, on a live instance too, before the first `init` and after `destroy` (D16, D17). -/
def execInit (s : State) : Host.Outcome State Fault Refusal :=
  .next (initBody (startOperation s))

/-- DESTROY (R137): no resource is held, no state is written; the instance is ended (D16; log 14). -/
def execDestroy (s : State) : Host.Outcome State Fault Refusal :=
  onLive s fun s => .next (setLife .ended s)

end Sys2Proof.Machine
end

