-- ==== Sys2Proof/Machine/TimerEngine.lean ====
section
/-! DEFINITION. The timer engine and UPDATE (R106 to R116): countdown, underflow, reload, one-shot stop, interrupt, cascade,
and the sub-steps in their fixed order. The declared but unimplemented branches are explicit definitions that change
nothing (R5, R67; log 24). -/

namespace Sys2Proof.Machine

/-! ## Declared, unimplemented (R5) -/

/-- Step e of an underflow: PB6/PB7 signalling, unimplemented (R110). -/
def signalPortB (_T : Timer) (s : State) : State :=
  s

/-- Counting on the external pulse pin, unimplemented (R111, R112). -/
def countPulsePin (_T : Timer) (s : State) : State :=
  s

/-- Counting on pulse pin and cascade together, unimplemented (R112). -/
def countPulsePinAndCascade (_T : Timer) (s : State) : State :=
  s

/-- The TOD sub-step: its periodic advance is stubbed (R114). -/
def todStep (s : State) : State :=
  s

/-- The keyboard sub-step: no operation (R114). -/
def keyboardStep (s : State) : State :=
  s

/-! ## Countdown and underflow (R109, R110) -/

/-- Step b: a one-shot timer stops (R110). -/
def stopIfOneShot (T : Timer) (s : State) : State :=
  if oneShotBit (getReal s (crReg T)) then setReal (crReg T) (clearStart (getReal s (crReg T))) s else s

/-- Step c: an enabled underflow asserts the interrupt (R110). -/
def interruptIfEnabled (T : Timer) (s : State) : State :=
  if maskEnables s T then assertIrq s else s

/-- Step d: the counter is reloaded from the latch (R110; 90_conflicts.md C1). -/
def reload (T : Timer) (s : State) : State :=
  setCounter T (latch T s) s

/-- The underflow of a timer: steps a to e in order (R110). -/
def underflow (T : Timer) (s : State) : State :=
  signalPortB T (reload T (interruptIfEnabled T (stopIfOneShot T (setStatus T s))))

/-- `count(T, n)`: the state after it, and whether the timer underflowed (R109). -/
def count (T : Timer) (n : Nat) (s : State) : State × Bool :=
  let tval := counter T s
  let newval := countdown tval n
  let s := setCounter T newval s
  if wrapped tval newval then (underflow T s, true) else (s, false)

/-! ## The sub-steps of `update` (R107, R111 to R114) -/

/-- Timer A's step: the state after it, and `uA` (R36, R111). -/
def timerAStep (delta : Nat) (s : State) : State × Bool :=
  if !startBit (getReal s .cra) then (s, false)
  else if pulsePinA (getReal s .cra) then (countPulsePin .a s, false)
  else count .a delta s

/-- Timer B's step (R112); its cascade input is the event of this `update`, `uA` (D12, log 18). -/
def timerBStep (delta : Nat) (uA : Bool) (s : State) : State :=
  if !startBit (getReal s .crb) then s
  else match sourceB (getReal s .crb) with
    | .ticks => (count .b delta s).1
    | .pulsePin => countPulsePin .b s
    | .cascade => if uA then (count .b 1 s).1 else s
    | .pulsePinAndCascade => countPulsePinAndCascade .b s

/-- The timers' share of an `update`: Timer A before Timer B (R113). -/
def timersStep (delta : Nat) (s : State) : State :=
  timerBStep delta (timerAStep delta s).2 (timerAStep delta s).1

/-- The sub-steps in their fixed order, then the baseline (R107, R108, R139). -/
def updateBody (t : Nat) (s : State) : State :=
  setLastTick t (keyboardStep (todStep (timersStep (tickDelta s t) s)))

/-- UPDATE t (R107); a tick below the baseline is refused (R108, decision D7; log 17). -/
def execUpdate (t : Nat) (s : State) : Host.Outcome State Fault Refusal :=
  onLive s fun s => if t < s.lastTick then .refused .tickWentBackwards else .next (updateBody t s)

end Sys2Proof.Machine
end

