-- ==== Sys2Proof/Machine/Dispatch.lean ====
section
/-! DEFINITION. One arm per constructor of Instr, each a direct call of its meaning. The address of a peek or poke has done
its work in decoding (R58), and a peek's data bits go nowhere (R56). -/

namespace Sys2Proof.Machine

def exec (i : Instr) (s : State) : Host.Outcome State Fault Refusal :=
  match i with
  | .peekPra _ _ => Sys2Proof.Machine.execPeekPra s
  | .peekPrb _ _ => Sys2Proof.Machine.execPeekPrb s
  | .peekDdra _ _ => Sys2Proof.Machine.execPeekDdra s
  | .peekDdrb _ _ => Sys2Proof.Machine.execPeekDdrb s
  | .peekTalo _ _ => Sys2Proof.Machine.execPeekTalo s
  | .peekTahi _ _ => Sys2Proof.Machine.execPeekTahi s
  | .peekTblo _ _ => Sys2Proof.Machine.execPeekTblo s
  | .peekTbhi _ _ => Sys2Proof.Machine.execPeekTbhi s
  | .peekTod10 _ _ => Sys2Proof.Machine.execPeekTod10 s
  | .peekTodsec _ _ => Sys2Proof.Machine.execPeekTodsec s
  | .peekTodmin _ _ => Sys2Proof.Machine.execPeekTodmin s
  | .peekTodhr _ _ => Sys2Proof.Machine.execPeekTodhr s
  | .peekSdr _ _ => Sys2Proof.Machine.execPeekSdr s
  | .peekIcr _ _ => Sys2Proof.Machine.execPeekIcr s
  | .peekCra _ _ => Sys2Proof.Machine.execPeekCra s
  | .peekCrb _ _ => Sys2Proof.Machine.execPeekCrb s
  | .pokePra _ d => Sys2Proof.Machine.execPokePra d s
  | .pokePrb _ d => Sys2Proof.Machine.execPokePrb d s
  | .pokeDdra _ d => Sys2Proof.Machine.execPokeDdra d s
  | .pokeDdrb _ d => Sys2Proof.Machine.execPokeDdrb d s
  | .pokeTalo _ d => Sys2Proof.Machine.execPokeTalo d s
  | .pokeTahi _ d => Sys2Proof.Machine.execPokeTahi d s
  | .pokeTblo _ d => Sys2Proof.Machine.execPokeTblo d s
  | .pokeTbhi _ d => Sys2Proof.Machine.execPokeTbhi d s
  | .pokeTod10 _ d => Sys2Proof.Machine.execPokeTod10 d s
  | .pokeTodsec _ d => Sys2Proof.Machine.execPokeTodsec d s
  | .pokeTodmin _ d => Sys2Proof.Machine.execPokeTodmin d s
  | .pokeTodhr _ d => Sys2Proof.Machine.execPokeTodhr d s
  | .pokeSdr _ d => Sys2Proof.Machine.execPokeSdr d s
  | .pokeIcr _ d => Sys2Proof.Machine.execPokeIcr d s
  | .pokeCra _ d => Sys2Proof.Machine.execPokeCra d s
  | .pokeCrb _ d => Sys2Proof.Machine.execPokeCrb d s
  | .update t => Sys2Proof.Machine.execUpdate t s
  | .keyDown k => Sys2Proof.Machine.execKeyDown k s
  | .keyUp k => Sys2Proof.Machine.execKeyUp k s
  | .init => Sys2Proof.Machine.execInit s
  | .destroy => Sys2Proof.Machine.execDestroy s

end Sys2Proof.Machine
end

