-- ==== Sys2Proof/Machine/Step.lean ====
section
/-! DEFINITION. One step: the host's next call is taken, decoded and run (R11, R49). The core fetches nothing from a memory
(R53): its "program" is the sequence of the host's calls, held in `pending` (log 1). -/

namespace Sys2Proof.Machine

/-- A step runs the host's next call. With none pending the core holds its state unchanged (R134; log 2); a call that
overlaps another is refused (R50). -/
def step (s : State) : Host.Outcome State Fault Refusal :=
  match s.pending with
  | [] => .next s
  | c :: rest => if admits c then exec (decode c.request) (setPending rest s) else .refused .overlappingCall

/-- The state with a bus operation, given by its transaction word, as the host's next call. -/
def State.withFetchWord (s : State) (_nbits w : Nat) : State :=
  { s with pending := ⟨false, .bus (BitVec.ofNat 17 w)⟩ :: s.pending }

end Sys2Proof.Machine
end

