-- ==== Sys2Proof/WellFormed.lean ====
section
/-! DEFINITION. Which instructions are well formed: a peek or poke of a register carries an address that reaches that
register, `a mod 16` being the register's index (the "Operands" line of R73 to R88 and R90 to R105). Every data
byte, tick and key code is allowed (R39, R57, R66). -/

namespace Sys2Proof

/-- The register a bus instruction names; a host operation names none. -/
def Instr.reg? : Instr → Option Reg
  | .peekPra _ _ => some .pra
  | .peekPrb _ _ => some .prb
  | .peekDdra _ _ => some .ddra
  | .peekDdrb _ _ => some .ddrb
  | .peekTalo _ _ => some .talo
  | .peekTahi _ _ => some .tahi
  | .peekTblo _ _ => some .tblo
  | .peekTbhi _ _ => some .tbhi
  | .peekTod10 _ _ => some .tod10
  | .peekTodsec _ _ => some .todsec
  | .peekTodmin _ _ => some .todmin
  | .peekTodhr _ _ => some .todhr
  | .peekSdr _ _ => some .sdr
  | .peekIcr _ _ => some .icr
  | .peekCra _ _ => some .cra
  | .peekCrb _ _ => some .crb
  | .pokePra _ _ => some .pra
  | .pokePrb _ _ => some .prb
  | .pokeDdra _ _ => some .ddra
  | .pokeDdrb _ _ => some .ddrb
  | .pokeTalo _ _ => some .talo
  | .pokeTahi _ _ => some .tahi
  | .pokeTblo _ _ => some .tblo
  | .pokeTbhi _ _ => some .tbhi
  | .pokeTod10 _ _ => some .tod10
  | .pokeTodsec _ _ => some .todsec
  | .pokeTodmin _ _ => some .todmin
  | .pokeTodhr _ _ => some .todhr
  | .pokeSdr _ _ => some .sdr
  | .pokeIcr _ _ => some .icr
  | .pokeCra _ _ => some .cra
  | .pokeCrb _ _ => some .crb
  | .update _ => none
  | .keyDown _ => none
  | .keyUp _ => none
  | .init => none
  | .destroy => none

/-- The address byte a bus instruction carries. -/
def Instr.address? : Instr → Option Byte
  | .peekPra a _ => some a
  | .peekPrb a _ => some a
  | .peekDdra a _ => some a
  | .peekDdrb a _ => some a
  | .peekTalo a _ => some a
  | .peekTahi a _ => some a
  | .peekTblo a _ => some a
  | .peekTbhi a _ => some a
  | .peekTod10 a _ => some a
  | .peekTodsec a _ => some a
  | .peekTodmin a _ => some a
  | .peekTodhr a _ => some a
  | .peekSdr a _ => some a
  | .peekIcr a _ => some a
  | .peekCra a _ => some a
  | .peekCrb a _ => some a
  | .pokePra a _ => some a
  | .pokePrb a _ => some a
  | .pokeDdra a _ => some a
  | .pokeDdrb a _ => some a
  | .pokeTalo a _ => some a
  | .pokeTahi a _ => some a
  | .pokeTblo a _ => some a
  | .pokeTbhi a _ => some a
  | .pokeTod10 a _ => some a
  | .pokeTodsec a _ => some a
  | .pokeTodmin a _ => some a
  | .pokeTodhr a _ => some a
  | .pokeSdr a _ => some a
  | .pokeIcr a _ => some a
  | .pokeCra a _ => some a
  | .pokeCrb a _ => some a
  | .update _ => none
  | .keyDown _ => none
  | .keyUp _ => none
  | .init => none
  | .destroy => none

/-- Well-formedness: the address a bus instruction carries reaches the register it names. -/
def Instr.wf (i : Instr) : Bool :=
  decide (i.address?.map registerOf = i.reg?)

end Sys2Proof
end

