-- ==== Sys2Proof/Safety.lean ====
section
/-! DEFINITION. What the claims speak of: the host's duties, the invariant of a run, sequences of operations, which
operations are peeks and pokes, the words of a row, and the effect of an `update` written in natural numbers. -/

namespace Sys2Proof.Machine

/-! ## The host's duties and a safe run -/

/-- The host's duties at one call (R138): `init` first, no call after `destroy`, no tick below the baseline. A run is
safe when every call of it meets them; then no call is refused. -/
def dutyMet (i : Instr) (s : State) : Prop :=
  i = .init ∨ (s.life = .live ∧ ∀ t, i = .update t → s.lastTick ≤ t)

/-- The cells of the latched plane that no operation but `init` writes (R17). -/
def idleLatchedCells (b : Bank) : List Byte :=
  [b.pra, b.prb, b.ddra, b.ddrb, b.sdr, b.icr, b.cra, b.crb]

/-- What every state that a run can reach has, once `init` was called: only bits 0, 1 and 7 of `isr` are ever 1
(R27); the master bit is set only beside an underflow bit (R110); bit 7 of the mask keeps its reset value (R30); the
latched cells without a meaning keep theirs (R17); the baseline is not below `P_INIT_TICK` (R138). -/
abbrev Inv (s : State) : Prop :=
  s.life = .uninitialised ∨
    (s.isr &&& 0x7C = 0 ∧
      (s.isr[7] = true → s.isr &&& 0x03 ≠ 0) ∧
      s.real.icr[7] = s.params.resetReal.icr[7] ∧
      idleLatchedCells s.latched = idleLatchedCells s.params.resetLatched ∧
      s.params.initTick ≤ s.lastTick)

/-! ## Sequences of operations -/

/-- Operations one after another, stopping at the first refusal (R9, R49). -/
def execAll : List Instr → State → Host.Outcome State Fault Refusal
  | [], s => .next s
  | i :: is, s =>
    match exec i s with
    | .next t => execAll is t
    | .fault f => .fault f
    | .refused r => .refused r

/-- The operations of an assembler line, run one after another (R70, R71). -/
def runLine (l : AsmLine) (s : State) : Host.Outcome State Fault Refusal :=
  execAll (l.assemble.map decode) s

/-- `k` calls of `update`, each one tick after the one before (R116). -/
def tickUpdates : Nat → State → Host.Outcome State Fault Refusal
  | 0, s => .next s
  | k + 1, s =>
    match exec (.update (s.lastTick + 1)) s with
    | .next t => tickUpdates k t
    | .fault f => .fault f
    | .refused r => .refused r

/-! ## Kinds of operations and the words of a row -/

/-- A peek: a row of the opcode table with W = 0. -/
def isPeek (i : Instr) : Bool :=
  (tableMatch i).any fun w => !isPokeWord w

/-- A poke: a row of the opcode table with W = 1. -/
def isPoke (i : Instr) : Bool :=
  (tableMatch i).any isPokeWord

/-- Every word of a peek row, `0mmmmrrrrxxxxxxxx`, packed as R56 says, is the instruction `i`. -/
def PeekWordIs (r : Nat) (a x : Byte) (i : Instr) : Prop :=
  a.toNat % 16 = r → decodeWord (packWord false a x) = i

/-- Every word of a poke row, `1mmmmrrrrdddddddd`, packed as R56 says, is the instruction `i`. -/
def PokeWordIs (r : Nat) (a d : Byte) (i : Instr) : Prop :=
  a.toNat % 16 = r → decodeWord (packWord true a d) = i

/-! ## Next states in plain words -/

/-- Nothing changed: the operation ran, emitted nothing and delivered nothing. -/
def afterNothing (s : State) : State :=
  { s with outputs := [], result := none }

/-- Nothing changed but that the operation delivered a byte (R8). -/
def afterPeek (s : State) (v : Byte) : State :=
  { s with outputs := [], result := some v }

/-- Nothing changed but the live plane. -/
def afterRealWrite (s : State) (b : Bank) : State :=
  { s with real := b, outputs := [], result := none }

/-! ## The effect of an `update` in natural numbers (R107 to R112) -/

/-- The value of a hi:lo pair (R20). -/
def pairValue (hi lo : Byte) : Nat :=
  hi.toNat * 256 + lo.toNat

/-- Counter A, as a number. -/
def counterA (s : State) : Nat :=
  pairValue s.real.tahi s.real.talo

/-- Counter B, as a number. -/
def counterB (s : State) : Nat :=
  pairValue s.real.tbhi s.real.tblo

/-- Latch A, as a number. -/
def latchA (s : State) : Nat :=
  pairValue s.latched.tahi s.latched.talo

/-- Latch B, as a number. -/
def latchB (s : State) : Nat :=
  pairValue s.latched.tbhi s.latched.tblo

/-- A count of `n` underflows a counter at `c`: only `n mod 2^16` matters, and it must exceed the counter (R109). -/
def underflowsAt (c n : Nat) : Bool :=
  c < n % 65536

/-- The counter after a count of `n` from `c` with latch `l`: the latch after an underflow, else the difference. -/
def countedFrom (c l n : Nat) : Nat :=
  if underflowsAt c n then l else c - n % 65536

/-- By how much Timer A counts in an `update` of delta `n` (R111). -/
def amountA (s : State) (n : Nat) : Nat :=
  if s.real.cra[0] && !s.real.cra[5] then n else 0

/-- Timer A underflows in an `update` of delta `n`. -/
def underflowsA (s : State) (n : Nat) : Bool :=
  underflowsAt (counterA s) (amountA s n)

/-- By how much Timer B counts in an `update` of delta `n`, by its source code (R63, R112). -/
def amountB (s : State) (n : Nat) : Nat :=
  if s.real.crb[0] then
    match s.real.crb[6], s.real.crb[5] with
    | false, false => n
    | true, false => if underflowsA s n then 1 else 0
    | _, true => 0
  else 0

/-- Timer B underflows in an `update` of delta `n`. -/
def underflowsB (s : State) (n : Nat) : Bool :=
  underflowsAt (counterB s) (amountB s n)

/-- A control register after its timer underflowed or not: a one-shot timer's START bit goes (R110 step b). -/
def controlAfter (cr : Byte) (underflowed : Bool) : Byte :=
  if underflowed && cr[3] then cr &&& 0xFE else cr

/-- The live plane after an `update` of delta `n`. -/
def realAfterUpdate (s : State) (n : Nat) : Bank :=
  let a := countedFrom (counterA s) (latchA s) (amountA s n)
  let b := countedFrom (counterB s) (latchB s) (amountB s n)
  { s.real with
    talo := BitVec.ofNat 8 a
    tahi := BitVec.ofNat 8 (a / 256)
    tblo := BitVec.ofNat 8 b
    tbhi := BitVec.ofNat 8 (b / 256)
    cra := controlAfter s.real.cra (underflowsA s n)
    crb := controlAfter s.real.crb (underflowsB s n) }

/-- Timer A's underflow is enabled and happens. -/
def interruptsA (s : State) (n : Nat) : Bool :=
  underflowsA s n && s.real.icr[0]

/-- Timer B's underflow is enabled and happens. -/
def interruptsB (s : State) (n : Nat) : Bool :=
  underflowsB s n && s.real.icr[1]

/-- Status bits set on a condition. -/
def bitsWhen (b : Bool) (bits : Byte) : Byte :=
  if b then bits else 0

/-- An IRQ event on a condition. -/
def irqWhen (b : Bool) : List Event :=
  if b then [.irq] else []

/-- `isr` after an `update` of delta `n` (R110 steps a and c). -/
def isrAfterUpdate (s : State) (n : Nat) : Byte :=
  s.isr ||| bitsWhen (underflowsA s n) 0x01 ||| bitsWhen (underflowsB s n) 0x02
    ||| bitsWhen (interruptsA s n || interruptsB s n) 0x80

/-- The events of an `update` of delta `n`, Timer A's first (R127). -/
def irqsOfUpdate (s : State) (n : Nat) : List Event :=
  irqWhen (interruptsA s n) ++ irqWhen (interruptsB s n)

/-- The state after an accepted `update(t)`. -/
def afterUpdate (s : State) (t : Nat) : State :=
  { s with
    real := realAfterUpdate s (t - s.lastTick)
    isr := isrAfterUpdate s (t - s.lastTick)
    lastTick := t
    outputs := irqsOfUpdate s (t - s.lastTick)
    result := none }

/-! ## What a program cannot see -/

/-- The state with Port B's data value blotted out (R18). -/
def withoutPrb (s : State) : State :=
  { s with real := { s.real with prb := 0 } }

/-- The state with another enable mask (R29). -/
def withMask (v : Byte) (s : State) : State :=
  { s with real := { s.real with icr := v } }

end Sys2Proof.Machine
end

