-- ==== Sys2Proof/Certificates/Slice0/Obligations.lean ====
section
/-! DEFINITION. The statements for the provers. They come from the numbered rules of spec/. Every statement that names an
address or a bit of a register rests on the register map and the bit positions the spec decided for itself (D1 to
D4; logs 8 to 11), which R16, R19, R24, R25, R27 and R30 state. -/

open Sys2Proof Sys2Proof.Machine

/-! ## Decoding -/

/-- Words written out from the layout of R56 decode to their instructions. -/
def Obligations.SpecWordsDecodeToTheirInstructions : Prop :=
  decodeTableWord 24 0x10E11 = some (.pokeCra 0x0E 0x11) ∧
    decodeTableWord 24 0x00D00 = some (.peekIcr 0x0D 0x00) ∧
    decodeTableWord 24 0x122F0 = some (.pokeDdra 0x22 0xF0) ∧
    decodeTableWord 24 0x0F000 = some (.peekPra 0xF0 0x00) ∧
    decodeTableWord 24 0x20000 = none

/-- Encoding loses nothing: every well-formed instruction comes back whole, mirror bits and don't-care bits too. -/
def Obligations.DecodeOfEncodeIsTheInstruction : Prop :=
  ∀ i : Instr, i.wf = true → decode (encode i) = i

/-- Decoding loses nothing and yields only well-formed instructions, for every request and so for all 2^17 words. -/
def Obligations.EncodeOfDecodeIsTheRequest : Prop :=
  ∀ q : Request, (decode q).wf = true ∧ encode (decode q) = q

/-- The decoder is the one R65 describes: a word's row is the one whose match value is the word under the mask, and a
host call is its own row. -/
def Obligations.DecodeMatchesTheOpcodeTable : Prop :=
  (∀ w : TransactionWord, tableMatch (decode (.bus w)) = some (w &&& tableMask)) ∧
    (∀ n, decode (.update n) = .update n) ∧ (∀ k, decode (.keyDown k) = .keyDown k) ∧
    (∀ k, decode (.keyUp k) = .keyUp k) ∧ decode .init = .init ∧ decode .destroy = .destroy

/-- Bits 15:12 of a word select nothing, and neither do bits 7:0 of a peek (R58, R66). -/
def Obligations.MirrorAndDontCareBitsSelectNothing : Prop :=
  ∀ (s : State) (w v : TransactionWord),
    isPokeWord w = isPokeWord v → w.extractLsb' 8 4 = v.extractLsb' 8 4 →
      (isPokeWord w = true → dataOf w = dataOf v) →
      exec (decodeWord w) s = exec (decodeWord v) s

/-! ## The step -/

/-- The host's next call is taken off, decoded and run. -/
def Obligations.StepRunsTheDecodedCall : Prop :=
  ∀ (s : State) (q : Request) (rest : List Call),
    s.pending = ⟨false, q⟩ :: rest → step s = exec (decode q) { s with pending := rest }

/-- With no call pending the state is held (log 2); a call that overlaps another one is refused (log 15). -/
def Obligations.StepHoldsTheStateOrRefusesAnOverlap : Prop :=
  ∀ (s : State) (q : Request) (rest : List Call),
    (s.pending = [] → step s = .next s) ∧
      (s.pending = ⟨true, q⟩ :: rest → step s = .refused .overlappingCall)

/-! ## Bus reads -/

/-- Ten registers are returned as they stand in the live plane, and nothing else changes. -/
def Obligations.PeekOfPlainRegistersReturnsTheLiveByte : Prop :=
  ∀ (s : State) (a x : Byte), s.life = .live →
    (PeekWordIs 0x0 a x (.peekPra a x) ∧
      exec (.peekPra a x) s = .next (afterPeek s s.real.pra)) ∧
    (PeekWordIs 0x2 a x (.peekDdra a x) ∧
      exec (.peekDdra a x) s = .next (afterPeek s s.real.ddra)) ∧
    (PeekWordIs 0x3 a x (.peekDdrb a x) ∧
      exec (.peekDdrb a x) s = .next (afterPeek s s.real.ddrb)) ∧
    (PeekWordIs 0x4 a x (.peekTalo a x) ∧
      exec (.peekTalo a x) s = .next (afterPeek s s.real.talo)) ∧
    (PeekWordIs 0x5 a x (.peekTahi a x) ∧
      exec (.peekTahi a x) s = .next (afterPeek s s.real.tahi)) ∧
    (PeekWordIs 0x6 a x (.peekTblo a x) ∧
      exec (.peekTblo a x) s = .next (afterPeek s s.real.tblo)) ∧
    (PeekWordIs 0x7 a x (.peekTbhi a x) ∧
      exec (.peekTbhi a x) s = .next (afterPeek s s.real.tbhi)) ∧
    (PeekWordIs 0xC a x (.peekSdr a x) ∧
      exec (.peekSdr a x) s = .next (afterPeek s s.real.sdr)) ∧
    (PeekWordIs 0xE a x (.peekCra a x) ∧
      exec (.peekCra a x) s = .next (afterPeek s s.real.cra)) ∧
    (PeekWordIs 0xF a x (.peekCrb a x) ∧
      exec (.peekCrb a x) s = .next (afterPeek s s.real.crb))

/-- A read of Port B is the keyboard scan: row bit r is 0 exactly when a selected column has key r pressed. -/
def Obligations.PeekOfPortBReturnsTheColumnScan : Prop :=
  ∀ (s : State) (a x : Byte), s.life = .live →
    PeekWordIs 0x1 a x (.peekPrb a x) ∧
      ∃ v : Byte,
        exec (.peekPrb a x) s = .next (afterPeek s v) ∧
        ∀ r : Fin 8,
          (v.getLsbD r = false ↔
            ∃ c : Fin 8, s.real.ddra.getLsbD c = true ∧ s.real.pra.getLsbD c = false ∧ (s.kbd[c]).getLsbD r = false)

/-- A read of the ICR returns the status, clears nothing and emits nothing. -/
def Obligations.PeekOfIcrReturnsTheStatusUncleared : Prop :=
  ∀ (s : State) (a x : Byte), s.life = .live →
    PeekWordIs 0xD a x (.peekIcr a x) ∧ exec (.peekIcr a x) s = .next (afterPeek s s.isr)

/-- Seconds and minutes are read from the plane the freeze flag names. -/
def Obligations.PeekOfSecondsAndMinutesFollowsTheFlag : Prop :=
  ∀ (s : State) (a x : Byte), s.life = .live →
    (PeekWordIs 0x9 a x (.peekTodsec a x) ∧
      exec (.peekTodsec a x) s =
        .next (afterPeek s (if s.todLatched then s.latched.todsec else s.real.todsec))) ∧
    (PeekWordIs 0xA a x (.peekTodmin a x) ∧
      exec (.peekTodmin a x) s =
        .next (afterPeek s (if s.todLatched then s.latched.todmin else s.real.todmin)))

/-- Tenths are read per flag, and then the flag is false. -/
def Obligations.PeekOfTenthsDeliversThenUnfreezes : Prop :=
  ∀ (s : State) (a x : Byte), s.life = .live →
    PeekWordIs 0x8 a x (.peekTod10 a x) ∧
      exec (.peekTod10 a x) s =
        .next { afterPeek s (if s.todLatched then s.latched.tod10 else s.real.tod10) with todLatched := false }

/-- Every hours read takes the snapshot, also when the flag is set already (the spec's own reading, decision D18,
log 19), sets the flag and returns the hours. -/
def Obligations.PeekOfHoursTakesTheSnapshot : Prop :=
  ∀ (s : State) (a x : Byte), s.life = .live →
    PeekWordIs 0xB a x (.peekTodhr a x) ∧
      exec (.peekTodhr a x) s =
        .next { afterPeek s s.real.todhr with
          latched := { s.latched with
            tod10 := s.real.tod10
            todsec := s.real.todsec
            todmin := s.real.todmin
            todhr := s.real.todhr }
          todLatched := true }

/-- No peek changes the live plane, `isr`, the keyboard or the baseline, or emits; and none but those of hours and
tenths changes the latched plane or the flag. -/
def Obligations.PeeksLeaveTheLivePlaneAlone : Prop :=
  ∀ (i : Instr) (s t : State), isPeek i = true → exec i s = .next t →
    (t.real = s.real ∧ t.isr = s.isr ∧ t.kbd = s.kbd ∧ t.lastTick = s.lastTick ∧ t.life = s.life ∧ t.outputs = []) ∧
      ((∀ a x, i ≠ .peekTodhr a x) → t.latched = s.latched) ∧
      ((∀ a x, i ≠ .peekTodhr a x) → (∀ a x, i ≠ .peekTod10 a x) → t.todLatched = s.todLatched)

/-- Repeating a peek at once delivers the same byte and leaves the same state, but for tenths: a second read of them delivers
the live byte (an inference the spec marks as its own, R47 "Repeating a peek at once"). -/
def Obligations.RepeatedPeekDeliversTheSameByte : Prop :=
  ∀ (i : Instr) (s t : State), isPeek i = true → exec i s = .next t →
    ((∀ a x, i ≠ .peekTod10 a x) → exec i t = .next t) ∧
      (∀ a x, i = .peekTod10 a x → exec i t = .next (afterPeek t s.real.tod10))

/-! ## Bus writes -/

/-- A port write changes the output bits only, bit by bit. -/
def Obligations.PokeOfPortsWritesOutputBitsOnly : Prop :=
  ∀ (s : State) (a d : Byte), s.life = .live →
    (PokeWordIs 0x0 a d (.pokePra a d) ∧
      ∃ v : Byte,
        exec (.pokePra a d) s = .next (afterRealWrite s { s.real with pra := v }) ∧
        ∀ b : Fin 8,
          v.getLsbD b = if s.real.ddra.getLsbD b then d.getLsbD b else s.real.pra.getLsbD b) ∧
    (PokeWordIs 0x1 a d (.pokePrb a d) ∧
      ∃ v : Byte,
        exec (.pokePrb a d) s = .next (afterRealWrite s { s.real with prb := v }) ∧
        ∀ b : Fin 8,
          v.getLsbD b = if s.real.ddrb.getLsbD b then d.getLsbD b else s.real.prb.getLsbD b)

/-- Seven registers are stored verbatim in the live plane, and nothing else changes. -/
def Obligations.PokeOfPlainRegistersStoresTheByte : Prop :=
  ∀ (s : State) (a d : Byte), s.life = .live →
    (PokeWordIs 0x2 a d (.pokeDdra a d) ∧
      exec (.pokeDdra a d) s = .next (afterRealWrite s { s.real with ddra := d })) ∧
    (PokeWordIs 0x3 a d (.pokeDdrb a d) ∧
      exec (.pokeDdrb a d) s = .next (afterRealWrite s { s.real with ddrb := d })) ∧
    (PokeWordIs 0x8 a d (.pokeTod10 a d) ∧
      exec (.pokeTod10 a d) s = .next (afterRealWrite s { s.real with tod10 := d })) ∧
    (PokeWordIs 0x9 a d (.pokeTodsec a d) ∧
      exec (.pokeTodsec a d) s = .next (afterRealWrite s { s.real with todsec := d })) ∧
    (PokeWordIs 0xA a d (.pokeTodmin a d) ∧
      exec (.pokeTodmin a d) s = .next (afterRealWrite s { s.real with todmin := d })) ∧
    (PokeWordIs 0xB a d (.pokeTodhr a d) ∧
      exec (.pokeTodhr a d) s = .next (afterRealWrite s { s.real with todhr := d })) ∧
    (PokeWordIs 0xC a d (.pokeSdr a d) ∧
      exec (.pokeSdr a d) s = .next (afterRealWrite s { s.real with sdr := d }))

/-- A timer byte goes to both planes, whether the timer runs or not, and nothing else changes. -/
def Obligations.PokeOfTimerBytesWritesBothPlanes : Prop :=
  ∀ (s : State) (a d : Byte), s.life = .live →
    (PokeWordIs 0x4 a d (.pokeTalo a d) ∧
      exec (.pokeTalo a d) s =
        .next { afterRealWrite s { s.real with talo := d } with latched := { s.latched with talo := d } }) ∧
    (PokeWordIs 0x5 a d (.pokeTahi a d) ∧
      exec (.pokeTahi a d) s =
        .next { afterRealWrite s { s.real with tahi := d } with latched := { s.latched with tahi := d } }) ∧
    (PokeWordIs 0x6 a d (.pokeTblo a d) ∧
      exec (.pokeTblo a d) s =
        .next { afterRealWrite s { s.real with tblo := d } with latched := { s.latched with tblo := d } }) ∧
    (PokeWordIs 0x7 a d (.pokeTbhi a d) ∧
      exec (.pokeTbhi a d) s =
        .next { afterRealWrite s { s.real with tbhi := d } with latched := { s.latched with tbhi := d } })

/-- The ICR poke's formula, bit by bit: a selected mask bit takes the fill bit, any other keeps its value, bit 7 stays. -/
def Obligations.PokeOfIcrBlendsTheMask : Prop :=
  ∀ (s : State) (a d : Byte), s.life = .live →
    PokeWordIs 0xD a d (.pokeIcr a d) ∧
      ∃ v : Byte,
        exec (.pokeIcr a d) s = .next (afterRealWrite s { s.real with icr := v }) ∧
        (∀ b : Fin 7, v.getLsbD b = if d.getLsbD b then d[7] else s.real.icr.getLsbD b) ∧
        v[7] = s.real.icr[7]

/-- A control byte is stored whole; with its LOAD bit the timer's latch goes into its counter, whatever the run state. -/
def Obligations.PokeOfControlRegistersStoresAndReloads : Prop :=
  ∀ (s : State) (a d : Byte), s.life = .live →
    (PokeWordIs 0xE a d (.pokeCra a d) ∧
      exec (.pokeCra a d) s =
        .next (afterRealWrite s
          (if d[4] then { s.real with cra := d, talo := s.latched.talo, tahi := s.latched.tahi }
           else { s.real with cra := d }))) ∧
    (PokeWordIs 0xF a d (.pokeCrb a d) ∧
      exec (.pokeCrb a d) s =
        .next (afterRealWrite s
          (if d[4] then { s.real with crb := d, tblo := s.latched.tblo, tbhi := s.latched.tbhi }
           else { s.real with crb := d })))

/-- No poke emits an event or changes `isr`, the freeze flag, the keyboard or the baseline. -/
def Obligations.PokesLeaveStatusAndKeyboardAlone : Prop :=
  ∀ (i : Instr) (s t : State), isPoke i = true → exec i s = .next t →
    t.isr = s.isr ∧ t.todLatched = s.todLatched ∧ t.kbd = s.kbd ∧ t.lastTick = s.lastTick ∧ t.life = s.life ∧
      t.outputs = [] ∧ t.result = none

/-- Repeating a poke at once changes nothing the first did not (an inference the spec marks as its own, R47 "Repeating a poke
of the same value at once"). -/
def Obligations.RepeatedPokeChangesNothingMore : Prop :=
  ∀ (i : Instr) (s t : State), isPoke i = true → exec i s = .next t → exec i t = .next t

/-! ## The timer engine -/

/-- The whole effect of an accepted `update`, in natural numbers: counters, control registers, status, events, baseline;
everything else unchanged. The clauses for the cascade and the baseline are the spec's decisions D12 and D6 (logs 18, 16);
the test by `n mod 2^16` is an inference the spec marks as its own (R109). -/
def Obligations.UpdateHasItsWholeEffect : Prop :=
  ∀ (s : State) (t : Nat), s.life = .live → s.lastTick ≤ t →
    exec (.update t) s = .next (afterUpdate s t)

/-- The steps a to e of an underflow, for Timer A with Timer B stopped and for Timer B, on the tick source, with Timer A
stopped: status bit, one-shot stop, master bit and IRQ if enabled, reload from the latch, nothing on Port B. When a timer
underflows, by `n mod 2^16`, is an inference the spec marks as its own (R109); the baseline is its decision D6 (log 16).
Both timers running and a cascaded underflow are in `UpdateHasItsWholeEffect`. -/
def Obligations.UnderflowDoesStepsAToE : Prop :=
  ∀ (s : State) (t : Nat), s.life = .live → s.lastTick ≤ t →
    (s.real.crb[0] = false → s.real.cra[0] = true → s.real.cra[5] = false →
      counterA s < (t - s.lastTick) % 65536 →
      exec (.update t) s =
        .next { s with
          real := { s.real with
            talo := s.latched.talo
            tahi := s.latched.tahi
            cra := if s.real.cra[3] then s.real.cra &&& 0xFE else s.real.cra }
          isr := s.isr ||| (if s.real.icr[0] then 0x81 else 0x01)
          lastTick := t
          outputs := if s.real.icr[0] then [.irq] else []
          result := none }) ∧
    (s.real.cra[0] = false → s.real.crb[0] = true → s.real.crb[6] = false → s.real.crb[5] = false →
      counterB s < (t - s.lastTick) % 65536 →
      exec (.update t) s =
        .next { s with
          real := { s.real with
            tblo := s.latched.tblo
            tbhi := s.latched.tbhi
            crb := if s.real.crb[3] then s.real.crb &&& 0xFE else s.real.crb }
          isr := s.isr ||| (if s.real.icr[1] then 0x82 else 0x02)
          lastTick := t
          outputs := if s.real.icr[1] then [.irq] else []
          result := none })

/-- A tick below the baseline is refused (the spec's decision D7). -/
def Obligations.TickBelowBaselineIsRefused : Prop :=
  ∀ (s : State) (t : Nat), s.life = .live → t < s.lastTick →
    exec (.update t) s = .refused .tickWentBackwards

/-- Timers that are stopped, or set to a declared but unimplemented source, or a cascade with Timer A not counting, count
nothing: only the baseline moves. That a cascade counts nothing then, whatever `isr` bit 0 holds, is the spec's decision D12
(log 18); the empty branches are log 24, the baseline decision D6 (log 16). CRB codes 01 and 11 beside a counting Timer A
are in `UpdateHasItsWholeEffect`. -/
def Obligations.StoppedOrUnimplementedSourcesCountNothing : Prop :=
  ∀ (s : State) (t : Nat), s.life = .live → s.lastTick ≤ t →
    (s.real.cra[0] = false ∨ s.real.cra[5] = true) →
    (s.real.crb[0] = false ∨ s.real.crb[5] = true ∨ s.real.crb[6] = true) →
    exec (.update t) s = .next { afterNothing s with lastTick := t }

/-- A running Timer B in cascade mode counts exactly one in an `update` in which Timer A underflows, however large the delta,
and none otherwise; at 0 that one count is its underflow. The event, not the sticky status bit, is the input (D12). -/
def Obligations.CascadeCountsOncePerTimerAUnderflow : Prop :=
  ∀ (s : State) (t : Nat), s.life = .live → s.lastTick ≤ t →
    s.real.crb[0] = true → s.real.crb[6] = true → s.real.crb[5] = false →
    ∃ u, exec (.update t) s = .next u ∧
      (underflowsA s (t - s.lastTick) = true →
        counterB u = if counterB s = 0 then latchB s else counterB s - 1) ∧
      (underflowsA s (t - s.lastTick) = false → counterB u = counterB s ∧ u.real.crb = s.real.crb)

/-- A running continuous Timer A on the tick source, updated tick by tick: it counts down to 0 without an underflow,
underflows at the next tick and shows its latch again; so with counter and latch both L it returns to L after every
L + 1 ticks (an inference the spec marks as its own, R116). -/
def Obligations.ContinuousTimerUnderflowsEveryLatchPlusOneTicks : Prop :=
  ∀ s : State, s.life = .live →
    s.real.cra[0] = true → s.real.cra[5] = false → s.real.cra[3] = false →
    (∀ k, k ≤ counterA s →
      ∃ t, tickUpdates k s = .next t ∧ counterA t = counterA s - k ∧ t.real.cra = s.real.cra ∧
        t.isr[0] = s.isr[0]) ∧
    (∃ t, tickUpdates (counterA s + 1) s = .next t ∧ counterA t = latchA s ∧ t.real.cra = s.real.cra ∧
      t.isr[0] = true) ∧
    (counterA s = latchA s → ∀ m,
      ∃ t, tickUpdates (m * (latchA s + 1)) s = .next t ∧ counterA t = latchA s ∧ t.latched = s.latched)

/-- A stopped timer's counter changes only by pokes of its bytes, a force-reload or `init`. -/
def Obligations.StoppedTimerHoldsItsCounter : Prop :=
  ∀ (i : Instr) (s t : State), exec i s = .next t → i ≠ .init →
    (s.real.cra[0] = false →
      (∀ a d, i ≠ .pokeTalo a d) → (∀ a d, i ≠ .pokeTahi a d) →
      (∀ a d, i = .pokeCra a d → d[4] = false) →
      t.real.talo = s.real.talo ∧ t.real.tahi = s.real.tahi) ∧
    (s.real.crb[0] = false →
      (∀ a d, i ≠ .pokeTblo a d) → (∀ a d, i ≠ .pokeTbhi a d) →
      (∀ a d, i = .pokeCrb a d → d[4] = false) →
      t.real.tblo = s.real.tblo ∧ t.real.tbhi = s.real.tbhi)

/-- Whole periods of 65536 ticks go uncounted: an `update` 65536 ticks later differs in the baseline alone (an inference the
spec marks as its own, R109 "only n mod 2^16 matters"). -/
def Obligations.WholePeriodsOfTicksGoUncounted : Prop :=
  ∀ (s : State) (t : Nat), s.life = .live → s.lastTick ≤ t →
    ∃ u, exec (.update t) s = .next u ∧
      exec (.update (t + 65536)) s = .next { u with lastTick := t + 65536 }

/-! ## The keyboard -/

/-- Pressing a key of the table clears its row bits in its column, and releasing it sets them; nothing else changes. -/
def Obligations.KeysOfTheTableMoveTheirRowBits : Prop :=
  ∀ (s : State) (k : KeyCode) (c : Fin 8) (m : Byte), s.life = .live →
    k ≠ s.params.restore → keyPosition s.params k = some ⟨c, m⟩ →
    exec (.keyDown k) s = .next { afterNothing s with kbd := s.kbd.set c (s.kbd[c] &&& ~~~m) } ∧
      exec (.keyUp k) s = .next { afterNothing s with kbd := s.kbd.set c (s.kbd[c] ||| m) }

/-- The restore key's press emits one NMI event and changes nothing, whatever the table holds; its release does nothing (the
spec's decision D14), and a code that is neither in the table nor the restore code does nothing (decision D13). -/
def Obligations.RestoreAndUnknownKeysLeaveTheMatrixAlone : Prop :=
  ∀ (s : State) (k : KeyCode), s.life = .live →
    exec (.keyDown s.params.restore) s = .next { afterNothing s with outputs := [.nmi] } ∧
      exec (.keyUp s.params.restore) s = .next (afterNothing s) ∧
      (k ≠ s.params.restore → keyPosition s.params k = none →
        exec (.keyDown k) s = .next (afterNothing s) ∧ exec (.keyUp k) s = .next (afterNothing s))

/-- A key pressed in a released column shows in a read of Port B that drives its column alone, as exactly its row bits
cleared; its release restores all ones. -/
def Obligations.PressedKeyShowsInItsColumn : Prop :=
  ∀ (s : State) (k : KeyCode) (c : Fin 8) (m a x : Byte), s.life = .live →
    k ≠ s.params.restore → keyPosition s.params k = some ⟨c, m⟩ →
    s.real.ddra = 0xFF → s.real.pra = ~~~(1#8 <<< c.val) → s.kbd[c] = 0xFF →
    ∃ t u v w,
      exec (.keyDown k) s = .next t ∧ exec (.peekPrb a x) t = .next u ∧ u.result = some (~~~m) ∧
        exec (.keyUp k) u = .next v ∧ exec (.peekPrb a x) v = .next w ∧ w.result = some 0xFF

/-! ## Interrupts -/

/-- Only an `update` emits IRQ events, two at most, and only the restore key's press emits an NMI event, one. That IRQ events
come from `update` alone and NMI events from `keyDown` alone is an inference the spec marks as its own (R127), and rests on
its decision D15 (log 22). -/
def Obligations.OnlyUpdateEmitsIrqAndOnlyRestoreEmitsNmi : Prop :=
  ∀ (i : Instr) (s t : State), exec i s = .next t →
    t.outputs = [] ∨ (t.outputs = [.nmi] ∧ i = .keyDown s.params.restore) ∨
      ((t.outputs = [.irq] ∨ t.outputs = [.irq, .irq]) ∧ ∃ n, i = .update n)

/-- Bits of `isr` only accumulate: no operation but `init` clears one, none but `update` sets one, and `init` clears all. -/
def Obligations.StatusBitsAreClearedByInitOnly : Prop :=
  ∀ (i : Instr) (s t : State), exec i s = .next t →
    (i ≠ .init → s.isr &&& t.isr = s.isr) ∧
      (i ≠ .init → (∀ n, i ≠ .update n) → t.isr = s.isr) ∧
      (i = .init → t.isr = 0)

/-- Whatever stands pending, a step keeps the invariant: the status bits that exist, the master bit beside an underflow bit,
bit 7 of the mask, the latched cells without a meaning, the baseline. That bits 2 to 6 of `isr` are 0 and that no operation
but `init` writes the idle latched cells are inferences the spec marks as its own (R27, R17). -/
def Obligations.StepKeepsTheStatusAndLatchInvariant : Prop :=
  ∀ s t : State, step s = .next t → Inv s → Inv t

/-- The state after reset meets the invariant. -/
def Obligations.ResetMeetsTheStatusAndLatchInvariant : Prop :=
  Inv State.reset

/-! ## The life of an instance -/

/-- Every operation that keeps the host's duties runs: nothing else is ever refused, and nothing faults. -/
def Obligations.DutifulCallsAlwaysRun : Prop :=
  ∀ (i : Instr) (s : State),
    (dutyMet i s → ∃ t, exec i s = .next t ∧ t.life = (if i = .destroy then .ended else .live)) ∧
      (¬ dutyMet i s → ∃ r, exec i s = .refused r)

/-- Before the first `init` and after `destroy` every operation but `init` is refused by name (the spec's decision D16). -/
def Obligations.OnlyInitRunsOutsideALife : Prop :=
  ∀ (i : Instr) (s : State), i ≠ .init →
    (s.life = .uninitialised → exec i s = .refused .notInitialised) ∧
      (s.life = .ended → exec i s = .refused .instanceEnded)

/-- `init` sets every reset value from any state at all, under any parameters, and emits nothing. The values of the flag and
the baseline, and the unnamed bytes, are the spec's decisions D11, D6 and D10. -/
def Obligations.InitSetsEveryResetValue : Prop :=
  ∀ s : State,
    exec .init s =
      .next { s with
        real := { s.params.resetReal with ddra := 0xFF, ddrb := 0x00, prb := 0xFF }
        latched := s.params.resetLatched
        isr := 0x00
        todLatched := false
        kbd := Vector.replicate 8 0xFF
        lastTick := s.params.initTick
        outputs := []
        result := none
        life := .live }

/-- `destroy` writes no state and emits nothing; the instance is ended (the model's own field, log 14). -/
def Obligations.DestroyEndsTheInstanceAndWritesNothing : Prop :=
  ∀ s : State, s.life = .live → exec .destroy s = .next { afterNothing s with life := .ended }

/-- After reset the values the source names stand, and `init` at reset changes nothing. -/
def Obligations.ResetHoldsTheNamedValues : Prop :=
  State.reset.real.ddra = 0xFF ∧ State.reset.real.ddrb = 0x00 ∧ State.reset.real.prb = 0xFF ∧
    State.reset.isr = 0x00 ∧ (∀ c : Fin 8, State.reset.kbd[c] = 0xFF) ∧
    exec .init State.reset = .next State.reset

/-- No operation changes the key table or another parameter, or the host's calls still to come. -/
def Obligations.ParametersAndPendingCallsAreConstant : Prop :=
  ∀ (i : Instr) (s t : State), exec i s = .next t → t.params = s.params ∧ t.pending = s.pending

/-! ## What a program cannot see, and what it can rely on -/

/-- Port B's data value cannot be observed: two states that differ in it alone step alike, to states that differ in it at most;
what is delivered and emitted is the same. -/
def Obligations.PortBDataIsUnobservable : Prop :=
  ∀ s t : State, withoutPrb s = withoutPrb t →
    (∀ u, step s = .next u → ∃ v, step t = .next v ∧ withoutPrb u = withoutPrb v) ∧
      (∀ r, step s = .refused r → step t = .refused r)

/-- The enable mask cannot be read back: with another mask every peek delivers the same byte and leaves the same state but for
the mask. -/
def Obligations.EnableMaskIsNotReadBack : Prop :=
  ∀ (i : Instr) (s t : State) (v : Byte), isPeek i = true → exec i s = .next t →
    exec i (withMask v s) = .next (withMask v t)

/-- Once frozen, the snapshot stands through every sequence of operations without a read of tenths or hours and without
`init`, pokes of the TOD registers among them: minutes and seconds are read from it. -/
def Obligations.TodSnapshotStandsUntilTenthsAreRead : Prop :=
  ∀ (is : List Instr) (s t : State),
    (∀ i ∈ is, i ≠ .init ∧ (∀ a x, i ≠ .peekTod10 a x) ∧ (∀ a x, i ≠ .peekTodhr a x)) →
    s.todLatched = true → execAll is s = .next t →
    t.todLatched = true ∧
      t.latched.tod10 = s.latched.tod10 ∧ t.latched.todsec = s.latched.todsec ∧
      t.latched.todmin = s.latched.todmin ∧ t.latched.todhr = s.latched.todhr ∧
      (t.life = .live → ∀ a x,
        exec (.peekTodmin a x) t = .next (afterPeek t s.latched.todmin) ∧
        exec (.peekTodsec a x) t = .next (afterPeek t s.latched.todsec) ∧
        ∃ u, exec (.peekTod10 a x) t = .next u ∧ u.result = some s.latched.tod10)

/-- The pseudo-instructions that write: `SETTA v` and `SETTB v` set counter and latch to v, `IENABLE m` and `IDISABLE m` set and
clear the mask bits m, `SELCOL c` drives column c alone (the spec's own notation, decision D9). -/
def Obligations.WritingPseudoInstructionsDoWhatTheyName : Prop :=
  ∀ (s : State) (v : Half) (m : Byte) (c : Fin 8), s.life = .live →
    (∃ t, runLine (.setTA v) s = .next t ∧ counterA t = v.toNat ∧ latchA t = v.toNat ∧
      counterB t = counterB s ∧ latchB t = latchB s) ∧
    (∃ t, runLine (.setTB v) s = .next t ∧ counterB t = v.toNat ∧ latchB t = v.toNat ∧
      counterA t = counterA s ∧ latchA t = latchA s) ∧
    (m.toNat ≤ 0x7F →
      runLine (.iEnable m) s = .next (afterRealWrite s { s.real with icr := s.real.icr ||| m }) ∧
      runLine (.iDisable m) s = .next (afterRealWrite s { s.real with icr := s.real.icr &&& ~~~m })) ∧
    (s.real.ddra = 0xFF →
      ∃ t, runLine (.selCol c) s = .next t ∧ ∀ i : Fin 8, (t.real.pra.getLsbD i = false ↔ i = c))

/-! ## The parameters as arguments -/

/-- The keys work for any type of key codes, any table and any restore code (R6, decision D5): told apart by a one-to-one
numbering, the codes `ks` a run uses are pressed and released as the table says, under one key table of the model that
depends on nothing else. The numbering is the model's choice (logs 5, 6); unknown codes and the release of restore are the
spec's decisions D13 and D14 (log 21). -/
def Obligations.KeysWorkForAnyCodeTypeTableAndRestoreCode : Prop :=
  ∀ (K : Type) (code : K → KeyCode) (table : K → Option KeyPosition) (restore : K) (ks : List K),
    Function.Injective code →
    ∃ t : KeyTable, ∀ s : State, s.life = .live → s.params.keyTable = t → s.params.restore = code restore →
      ∀ k ∈ ks,
        (k = restore →
          exec (.keyDown (code k)) s = .next { afterNothing s with outputs := [.nmi] } ∧
            exec (.keyUp (code k)) s = .next (afterNothing s)) ∧
        (k ≠ restore → ∀ (c : Fin 8) (m : Byte), table k = some ⟨c, m⟩ →
          exec (.keyDown (code k)) s = .next { afterNothing s with kbd := s.kbd.set c (s.kbd[c] &&& ~~~m) } ∧
            exec (.keyUp (code k)) s = .next { afterNothing s with kbd := s.kbd.set c (s.kbd[c] ||| m) }) ∧
        (k ≠ restore → table k = none →
          exec (.keyDown (code k)) s = .next (afterNothing s) ∧ exec (.keyUp (code k)) s = .next (afterNothing s))
end

