-- ==== Sys2Proof/Laws/State.lean ====
section
/-! SUPPORT. One lemma per field per update of State, true by rfl, so that no proof unfolds a record update; and the cells
of a plane (R14). -/

namespace Sys2Proof.Machine

@[simp] theorem bankGet_pra (b : Bank) : bankGet b .pra = b.pra := rfl
@[simp] theorem bankGet_prb (b : Bank) : bankGet b .prb = b.prb := rfl
@[simp] theorem bankGet_ddra (b : Bank) : bankGet b .ddra = b.ddra := rfl
@[simp] theorem bankGet_ddrb (b : Bank) : bankGet b .ddrb = b.ddrb := rfl
@[simp] theorem bankGet_talo (b : Bank) : bankGet b .talo = b.talo := rfl
@[simp] theorem bankGet_tahi (b : Bank) : bankGet b .tahi = b.tahi := rfl
@[simp] theorem bankGet_tblo (b : Bank) : bankGet b .tblo = b.tblo := rfl
@[simp] theorem bankGet_tbhi (b : Bank) : bankGet b .tbhi = b.tbhi := rfl
@[simp] theorem bankGet_tod10 (b : Bank) : bankGet b .tod10 = b.tod10 := rfl
@[simp] theorem bankGet_todsec (b : Bank) : bankGet b .todsec = b.todsec := rfl
@[simp] theorem bankGet_todmin (b : Bank) : bankGet b .todmin = b.todmin := rfl
@[simp] theorem bankGet_todhr (b : Bank) : bankGet b .todhr = b.todhr := rfl
@[simp] theorem bankGet_sdr (b : Bank) : bankGet b .sdr = b.sdr := rfl
@[simp] theorem bankGet_icr (b : Bank) : bankGet b .icr = b.icr := rfl
@[simp] theorem bankGet_cra (b : Bank) : bankGet b .cra = b.cra := rfl
@[simp] theorem bankGet_crb (b : Bank) : bankGet b .crb = b.crb := rfl

@[simp] theorem bankSet_pra (b : Bank) (v : Byte) : bankSet b .pra v = { b with pra := v } := rfl
@[simp] theorem bankSet_prb (b : Bank) (v : Byte) : bankSet b .prb v = { b with prb := v } := rfl
@[simp] theorem bankSet_ddra (b : Bank) (v : Byte) : bankSet b .ddra v = { b with ddra := v } := rfl
@[simp] theorem bankSet_ddrb (b : Bank) (v : Byte) : bankSet b .ddrb v = { b with ddrb := v } := rfl
@[simp] theorem bankSet_talo (b : Bank) (v : Byte) : bankSet b .talo v = { b with talo := v } := rfl
@[simp] theorem bankSet_tahi (b : Bank) (v : Byte) : bankSet b .tahi v = { b with tahi := v } := rfl
@[simp] theorem bankSet_tblo (b : Bank) (v : Byte) : bankSet b .tblo v = { b with tblo := v } := rfl
@[simp] theorem bankSet_tbhi (b : Bank) (v : Byte) : bankSet b .tbhi v = { b with tbhi := v } := rfl
@[simp] theorem bankSet_tod10 (b : Bank) (v : Byte) : bankSet b .tod10 v = { b with tod10 := v } := rfl
@[simp] theorem bankSet_todsec (b : Bank) (v : Byte) : bankSet b .todsec v = { b with todsec := v } := rfl
@[simp] theorem bankSet_todmin (b : Bank) (v : Byte) : bankSet b .todmin v = { b with todmin := v } := rfl
@[simp] theorem bankSet_todhr (b : Bank) (v : Byte) : bankSet b .todhr v = { b with todhr := v } := rfl
@[simp] theorem bankSet_sdr (b : Bank) (v : Byte) : bankSet b .sdr v = { b with sdr := v } := rfl
@[simp] theorem bankSet_icr (b : Bank) (v : Byte) : bankSet b .icr v = { b with icr := v } := rfl
@[simp] theorem bankSet_cra (b : Bank) (v : Byte) : bankSet b .cra v = { b with cra := v } := rfl
@[simp] theorem bankSet_crb (b : Bank) (v : Byte) : bankSet b .crb v = { b with crb := v } := rfl

@[simp] theorem setReal_real (r : Reg) (v : Byte) (s : State) : (setReal r v s).real = bankSet s.real r v := rfl
@[simp] theorem setReal_latched (r : Reg) (v : Byte) (s : State) : (setReal r v s).latched = s.latched := rfl
@[simp] theorem setReal_isr (r : Reg) (v : Byte) (s : State) : (setReal r v s).isr = s.isr := rfl
@[simp] theorem setReal_todLatched (r : Reg) (v : Byte) (s : State) : (setReal r v s).todLatched = s.todLatched := rfl
@[simp] theorem setReal_kbd (r : Reg) (v : Byte) (s : State) : (setReal r v s).kbd = s.kbd := rfl
@[simp] theorem setReal_lastTick (r : Reg) (v : Byte) (s : State) : (setReal r v s).lastTick = s.lastTick := rfl
@[simp] theorem setReal_params (r : Reg) (v : Byte) (s : State) : (setReal r v s).params = s.params := rfl
@[simp] theorem setReal_outputs (r : Reg) (v : Byte) (s : State) : (setReal r v s).outputs = s.outputs := rfl
@[simp] theorem setReal_result (r : Reg) (v : Byte) (s : State) : (setReal r v s).result = s.result := rfl
@[simp] theorem setReal_life (r : Reg) (v : Byte) (s : State) : (setReal r v s).life = s.life := rfl
@[simp] theorem setReal_pending (r : Reg) (v : Byte) (s : State) : (setReal r v s).pending = s.pending := rfl

@[simp] theorem setLatched_real (r : Reg) (v : Byte) (s : State) : (setLatched r v s).real = s.real := rfl
@[simp] theorem setLatched_latched (r : Reg) (v : Byte) (s : State) : (setLatched r v s).latched = bankSet s.latched r v := rfl
@[simp] theorem setLatched_isr (r : Reg) (v : Byte) (s : State) : (setLatched r v s).isr = s.isr := rfl
@[simp] theorem setLatched_todLatched (r : Reg) (v : Byte) (s : State) : (setLatched r v s).todLatched = s.todLatched := rfl
@[simp] theorem setLatched_kbd (r : Reg) (v : Byte) (s : State) : (setLatched r v s).kbd = s.kbd := rfl
@[simp] theorem setLatched_lastTick (r : Reg) (v : Byte) (s : State) : (setLatched r v s).lastTick = s.lastTick := rfl
@[simp] theorem setLatched_params (r : Reg) (v : Byte) (s : State) : (setLatched r v s).params = s.params := rfl
@[simp] theorem setLatched_outputs (r : Reg) (v : Byte) (s : State) : (setLatched r v s).outputs = s.outputs := rfl
@[simp] theorem setLatched_result (r : Reg) (v : Byte) (s : State) : (setLatched r v s).result = s.result := rfl
@[simp] theorem setLatched_life (r : Reg) (v : Byte) (s : State) : (setLatched r v s).life = s.life := rfl
@[simp] theorem setLatched_pending (r : Reg) (v : Byte) (s : State) : (setLatched r v s).pending = s.pending := rfl

@[simp] theorem setIsr_real (v : Byte) (s : State) : (setIsr v s).real = s.real := rfl
@[simp] theorem setIsr_latched (v : Byte) (s : State) : (setIsr v s).latched = s.latched := rfl
@[simp] theorem setIsr_isr (v : Byte) (s : State) : (setIsr v s).isr = v := rfl
@[simp] theorem setIsr_todLatched (v : Byte) (s : State) : (setIsr v s).todLatched = s.todLatched := rfl
@[simp] theorem setIsr_kbd (v : Byte) (s : State) : (setIsr v s).kbd = s.kbd := rfl
@[simp] theorem setIsr_lastTick (v : Byte) (s : State) : (setIsr v s).lastTick = s.lastTick := rfl
@[simp] theorem setIsr_params (v : Byte) (s : State) : (setIsr v s).params = s.params := rfl
@[simp] theorem setIsr_outputs (v : Byte) (s : State) : (setIsr v s).outputs = s.outputs := rfl
@[simp] theorem setIsr_result (v : Byte) (s : State) : (setIsr v s).result = s.result := rfl
@[simp] theorem setIsr_life (v : Byte) (s : State) : (setIsr v s).life = s.life := rfl
@[simp] theorem setIsr_pending (v : Byte) (s : State) : (setIsr v s).pending = s.pending := rfl

@[simp] theorem setTodLatched_real (b : Bool) (s : State) : (setTodLatched b s).real = s.real := rfl
@[simp] theorem setTodLatched_latched (b : Bool) (s : State) : (setTodLatched b s).latched = s.latched := rfl
@[simp] theorem setTodLatched_isr (b : Bool) (s : State) : (setTodLatched b s).isr = s.isr := rfl
@[simp] theorem setTodLatched_todLatched (b : Bool) (s : State) : (setTodLatched b s).todLatched = b := rfl
@[simp] theorem setTodLatched_kbd (b : Bool) (s : State) : (setTodLatched b s).kbd = s.kbd := rfl
@[simp] theorem setTodLatched_lastTick (b : Bool) (s : State) : (setTodLatched b s).lastTick = s.lastTick := rfl
@[simp] theorem setTodLatched_params (b : Bool) (s : State) : (setTodLatched b s).params = s.params := rfl
@[simp] theorem setTodLatched_outputs (b : Bool) (s : State) : (setTodLatched b s).outputs = s.outputs := rfl
@[simp] theorem setTodLatched_result (b : Bool) (s : State) : (setTodLatched b s).result = s.result := rfl
@[simp] theorem setTodLatched_life (b : Bool) (s : State) : (setTodLatched b s).life = s.life := rfl
@[simp] theorem setTodLatched_pending (b : Bool) (s : State) : (setTodLatched b s).pending = s.pending := rfl

@[simp] theorem setColumn_real (c : Fin 8) (v : Byte) (s : State) : (setColumn c v s).real = s.real := rfl
@[simp] theorem setColumn_latched (c : Fin 8) (v : Byte) (s : State) : (setColumn c v s).latched = s.latched := rfl
@[simp] theorem setColumn_isr (c : Fin 8) (v : Byte) (s : State) : (setColumn c v s).isr = s.isr := rfl
@[simp] theorem setColumn_todLatched (c : Fin 8) (v : Byte) (s : State) : (setColumn c v s).todLatched = s.todLatched := rfl
@[simp] theorem setColumn_kbd (c : Fin 8) (v : Byte) (s : State) : (setColumn c v s).kbd = s.kbd.set c v := rfl
@[simp] theorem setColumn_lastTick (c : Fin 8) (v : Byte) (s : State) : (setColumn c v s).lastTick = s.lastTick := rfl
@[simp] theorem setColumn_params (c : Fin 8) (v : Byte) (s : State) : (setColumn c v s).params = s.params := rfl
@[simp] theorem setColumn_outputs (c : Fin 8) (v : Byte) (s : State) : (setColumn c v s).outputs = s.outputs := rfl
@[simp] theorem setColumn_result (c : Fin 8) (v : Byte) (s : State) : (setColumn c v s).result = s.result := rfl
@[simp] theorem setColumn_life (c : Fin 8) (v : Byte) (s : State) : (setColumn c v s).life = s.life := rfl
@[simp] theorem setColumn_pending (c : Fin 8) (v : Byte) (s : State) : (setColumn c v s).pending = s.pending := rfl

@[simp] theorem setLastTick_real (t : Nat) (s : State) : (setLastTick t s).real = s.real := rfl
@[simp] theorem setLastTick_latched (t : Nat) (s : State) : (setLastTick t s).latched = s.latched := rfl
@[simp] theorem setLastTick_isr (t : Nat) (s : State) : (setLastTick t s).isr = s.isr := rfl
@[simp] theorem setLastTick_todLatched (t : Nat) (s : State) : (setLastTick t s).todLatched = s.todLatched := rfl
@[simp] theorem setLastTick_kbd (t : Nat) (s : State) : (setLastTick t s).kbd = s.kbd := rfl
@[simp] theorem setLastTick_lastTick (t : Nat) (s : State) : (setLastTick t s).lastTick = t := rfl
@[simp] theorem setLastTick_params (t : Nat) (s : State) : (setLastTick t s).params = s.params := rfl
@[simp] theorem setLastTick_outputs (t : Nat) (s : State) : (setLastTick t s).outputs = s.outputs := rfl
@[simp] theorem setLastTick_result (t : Nat) (s : State) : (setLastTick t s).result = s.result := rfl
@[simp] theorem setLastTick_life (t : Nat) (s : State) : (setLastTick t s).life = s.life := rfl
@[simp] theorem setLastTick_pending (t : Nat) (s : State) : (setLastTick t s).pending = s.pending := rfl

@[simp] theorem setLife_real (l : Life) (s : State) : (setLife l s).real = s.real := rfl
@[simp] theorem setLife_latched (l : Life) (s : State) : (setLife l s).latched = s.latched := rfl
@[simp] theorem setLife_isr (l : Life) (s : State) : (setLife l s).isr = s.isr := rfl
@[simp] theorem setLife_todLatched (l : Life) (s : State) : (setLife l s).todLatched = s.todLatched := rfl
@[simp] theorem setLife_kbd (l : Life) (s : State) : (setLife l s).kbd = s.kbd := rfl
@[simp] theorem setLife_lastTick (l : Life) (s : State) : (setLife l s).lastTick = s.lastTick := rfl
@[simp] theorem setLife_params (l : Life) (s : State) : (setLife l s).params = s.params := rfl
@[simp] theorem setLife_outputs (l : Life) (s : State) : (setLife l s).outputs = s.outputs := rfl
@[simp] theorem setLife_result (l : Life) (s : State) : (setLife l s).result = s.result := rfl
@[simp] theorem setLife_life (l : Life) (s : State) : (setLife l s).life = l := rfl
@[simp] theorem setLife_pending (l : Life) (s : State) : (setLife l s).pending = s.pending := rfl

@[simp] theorem setPending_real (cs : List Call) (s : State) : (setPending cs s).real = s.real := rfl
@[simp] theorem setPending_latched (cs : List Call) (s : State) : (setPending cs s).latched = s.latched := rfl
@[simp] theorem setPending_isr (cs : List Call) (s : State) : (setPending cs s).isr = s.isr := rfl
@[simp] theorem setPending_todLatched (cs : List Call) (s : State) : (setPending cs s).todLatched = s.todLatched := rfl
@[simp] theorem setPending_kbd (cs : List Call) (s : State) : (setPending cs s).kbd = s.kbd := rfl
@[simp] theorem setPending_lastTick (cs : List Call) (s : State) : (setPending cs s).lastTick = s.lastTick := rfl
@[simp] theorem setPending_params (cs : List Call) (s : State) : (setPending cs s).params = s.params := rfl
@[simp] theorem setPending_outputs (cs : List Call) (s : State) : (setPending cs s).outputs = s.outputs := rfl
@[simp] theorem setPending_result (cs : List Call) (s : State) : (setPending cs s).result = s.result := rfl
@[simp] theorem setPending_life (cs : List Call) (s : State) : (setPending cs s).life = s.life := rfl
@[simp] theorem setPending_pending (cs : List Call) (s : State) : (setPending cs s).pending = cs := rfl

@[simp] theorem emit_real (e : Event) (s : State) : (emit e s).real = s.real := rfl
@[simp] theorem emit_latched (e : Event) (s : State) : (emit e s).latched = s.latched := rfl
@[simp] theorem emit_isr (e : Event) (s : State) : (emit e s).isr = s.isr := rfl
@[simp] theorem emit_todLatched (e : Event) (s : State) : (emit e s).todLatched = s.todLatched := rfl
@[simp] theorem emit_kbd (e : Event) (s : State) : (emit e s).kbd = s.kbd := rfl
@[simp] theorem emit_lastTick (e : Event) (s : State) : (emit e s).lastTick = s.lastTick := rfl
@[simp] theorem emit_params (e : Event) (s : State) : (emit e s).params = s.params := rfl
@[simp] theorem emit_outputs (e : Event) (s : State) : (emit e s).outputs = s.outputs ++ [e] := rfl
@[simp] theorem emit_result (e : Event) (s : State) : (emit e s).result = s.result := rfl
@[simp] theorem emit_life (e : Event) (s : State) : (emit e s).life = s.life := rfl
@[simp] theorem emit_pending (e : Event) (s : State) : (emit e s).pending = s.pending := rfl

@[simp] theorem deliver_real (v : Byte) (s : State) : (deliver v s).real = s.real := rfl
@[simp] theorem deliver_latched (v : Byte) (s : State) : (deliver v s).latched = s.latched := rfl
@[simp] theorem deliver_isr (v : Byte) (s : State) : (deliver v s).isr = s.isr := rfl
@[simp] theorem deliver_todLatched (v : Byte) (s : State) : (deliver v s).todLatched = s.todLatched := rfl
@[simp] theorem deliver_kbd (v : Byte) (s : State) : (deliver v s).kbd = s.kbd := rfl
@[simp] theorem deliver_lastTick (v : Byte) (s : State) : (deliver v s).lastTick = s.lastTick := rfl
@[simp] theorem deliver_params (v : Byte) (s : State) : (deliver v s).params = s.params := rfl
@[simp] theorem deliver_outputs (v : Byte) (s : State) : (deliver v s).outputs = s.outputs := rfl
@[simp] theorem deliver_result (v : Byte) (s : State) : (deliver v s).result = some v := rfl
@[simp] theorem deliver_life (v : Byte) (s : State) : (deliver v s).life = s.life := rfl
@[simp] theorem deliver_pending (v : Byte) (s : State) : (deliver v s).pending = s.pending := rfl

@[simp] theorem startOperation_real (s : State) : (startOperation s).real = s.real := rfl
@[simp] theorem startOperation_latched (s : State) : (startOperation s).latched = s.latched := rfl
@[simp] theorem startOperation_isr (s : State) : (startOperation s).isr = s.isr := rfl
@[simp] theorem startOperation_todLatched (s : State) : (startOperation s).todLatched = s.todLatched := rfl
@[simp] theorem startOperation_kbd (s : State) : (startOperation s).kbd = s.kbd := rfl
@[simp] theorem startOperation_lastTick (s : State) : (startOperation s).lastTick = s.lastTick := rfl
@[simp] theorem startOperation_params (s : State) : (startOperation s).params = s.params := rfl
@[simp] theorem startOperation_outputs (s : State) : (startOperation s).outputs = [] := rfl
@[simp] theorem startOperation_result (s : State) : (startOperation s).result = none := rfl
@[simp] theorem startOperation_life (s : State) : (startOperation s).life = s.life := rfl
@[simp] theorem startOperation_pending (s : State) : (startOperation s).pending = s.pending := rfl

@[simp] theorem initBody_real (s : State) : (initBody s).real = resetReal s.params := rfl
@[simp] theorem initBody_latched (s : State) : (initBody s).latched = resetLatched s.params := rfl
@[simp] theorem initBody_isr (s : State) : (initBody s).isr = resetIsr := rfl
@[simp] theorem initBody_todLatched (s : State) : (initBody s).todLatched = false := rfl
@[simp] theorem initBody_kbd (s : State) : (initBody s).kbd = resetKbd := rfl
@[simp] theorem initBody_lastTick (s : State) : (initBody s).lastTick = s.params.initTick := rfl
@[simp] theorem initBody_params (s : State) : (initBody s).params = s.params := rfl
@[simp] theorem initBody_outputs (s : State) : (initBody s).outputs = s.outputs := rfl
@[simp] theorem initBody_result (s : State) : (initBody s).result = s.result := rfl
@[simp] theorem initBody_life (s : State) : (initBody s).life = .live := rfl
@[simp] theorem initBody_pending (s : State) : (initBody s).pending = s.pending := rfl

/-- A cell reads as it was written. -/
theorem bankGet_bankSet_same (b : Bank) (r : Reg) (v : Byte) : bankGet (bankSet b r v) r = v := by
  cases r <;> rfl

/-- A write to one cell leaves every other cell alone (R13). -/
theorem bankGet_bankSet_ne (b : Bank) {r q : Reg} (v : Byte) (h : q ≠ r) :
    bankGet (bankSet b r v) q = bankGet b q := by
  cases r <;> cases q <;> first | rfl | exact absurd rfl h

/-- Two planes with the same cells are the same plane. -/
theorem bank_ext (b c : Bank) (h : ∀ r, bankGet b r = bankGet c r) : b = c := by
  cases b
  cases c
  simp only [Bank.mk.injEq]
  exact ⟨h .pra, h .prb, h .ddra, h .ddrb, h .talo, h .tahi, h .tblo, h .tbhi, h .tod10, h .todsec, h .todmin, h .todhr,
    h .sdr, h .icr, h .cra, h .crb⟩

/-- `copyRealToLatch` then `copyLatchToReal` restores the cell (95_test_vectors.md L1-1). -/
theorem copyLatchToReal_copyRealToLatch_real (r : Reg) (s : State) :
    (copyLatchToReal r (copyRealToLatch r s)).real = s.real := by
  apply bank_ext
  intro q
  simp only [copyLatchToReal, copyRealToLatch, getReal, getLatched, setReal_real, setLatched_real, setLatched_latched,
    bankGet_bankSet_same]
  by_cases h : q = r
  · subst h
    exact bankGet_bankSet_same _ _ _
  · exact bankGet_bankSet_ne _ _ h

end Sys2Proof.Machine
end

