-- ==== Sys2Proof/Laws/Exec.lean ====
section
/-! SUPPORT. Everything an operation can do, said once: when it runs, and what the next state then is. Proofs about `exec`
cite these and never unfold it. -/

namespace Sys2Proof.Machine

/-- The state an operation leaves when it runs, from the state its start leaves. -/
def effect : Instr → State → State
  | .peekPra _ _, s => peekReal .pra s
  | .peekPrb _ _, s => deliver (scan s) s
  | .peekDdra _ _, s => peekReal .ddra s
  | .peekDdrb _ _, s => peekReal .ddrb s
  | .peekTalo _ _, s => peekReal .talo s
  | .peekTahi _ _, s => peekReal .tahi s
  | .peekTblo _ _, s => peekReal .tblo s
  | .peekTbhi _ _, s => peekReal .tbhi s
  | .peekTod10 _ _, s => peekTenths s
  | .peekTodsec _ _, s => deliver (todValue .todsec s) s
  | .peekTodmin _ _, s => deliver (todValue .todmin s) s
  | .peekTodhr _ _, s => peekHours s
  | .peekSdr _ _, s => peekReal .sdr s
  | .peekIcr _ _, s => deliver s.isr s
  | .peekCra _ _, s => peekReal .cra s
  | .peekCrb _ _, s => peekReal .crb s
  | .pokePra _ d, s => pokePort .pra .ddra d s
  | .pokePrb _ d, s => pokePort .prb .ddrb d s
  | .pokeDdra _ d, s => pokeReal .ddra d s
  | .pokeDdrb _ d, s => pokeReal .ddrb d s
  | .pokeTalo _ d, s => pokeTimerByte .talo d s
  | .pokeTahi _ d, s => pokeTimerByte .tahi d s
  | .pokeTblo _ d, s => pokeTimerByte .tblo d s
  | .pokeTbhi _ d, s => pokeTimerByte .tbhi d s
  | .pokeTod10 _ d, s => pokeReal .tod10 d s
  | .pokeTodsec _ d, s => pokeReal .todsec d s
  | .pokeTodmin _ d, s => pokeReal .todmin d s
  | .pokeTodhr _ d, s => pokeReal .todhr d s
  | .pokeSdr _ d, s => pokeReal .sdr d s
  | .pokeIcr _ d, s => pokeMask d s
  | .pokeCra _ d, s => pokeControl .a d s
  | .pokeCrb _ d, s => pokeControl .b d s
  | .update t, s => updateBody t s
  | .keyDown k, s => keyDownBody k s
  | .keyUp k, s => keyUpBody k s
  | .init, s => initBody s
  | .destroy, s => setLife .ended s

/-- What an operation answers on a live instance, from the state its start leaves: only an `update` can be refused. -/
def answer (i : Instr) (s : State) : Host.Outcome State Fault Refusal :=
  match i with
  | .update t => if t < s.lastTick then .refused .tickWentBackwards else .next (effect i s)
  | _ => .next (effect i s)

/-- Every operation but `init` is its answer, on a live instance. -/
theorem exec_eq_onLive {i : Instr} (hi : i ≠ .init) (s : State) : exec i s = onLive s (answer i) := by
  cases i with
  | init => exact absurd rfl hi
  | _ => rfl

/-- On a live instance the body runs. -/
theorem onLive_live {s : State} (h : s.life = .live) (body : State → Host.Outcome State Fault Refusal) :
    onLive s body = body (startOperation s) := by
  simp only [onLive, h]

/-- Before `init` an operation is refused (R138). -/
theorem onLive_uninitialised {s : State} (h : s.life = .uninitialised)
    (body : State → Host.Outcome State Fault Refusal) : onLive s body = .refused .notInitialised := by
  simp only [onLive, h]

/-- After `destroy` an operation is refused (R137). -/
theorem onLive_ended {s : State} (h : s.life = .ended)
    (body : State → Host.Outcome State Fault Refusal) : onLive s body = .refused .instanceEnded := by
  simp only [onLive, h]

/-- The answer is the effect, unless it is an `update` with a tick below the baseline. -/
theorem answer_of_tick {i : Instr} {s : State} (ht : ∀ t, i = .update t → s.lastTick ≤ t) :
    answer i s = .next (effect i s) := by
  cases i with
  | update t => exact if_neg (Nat.not_lt.mpr (ht t rfl))
  | _ => rfl

/-- An operation that keeps the host's duties runs, to its effect. -/
theorem exec_of_dutyMet {i : Instr} {s : State} (h : dutyMet i s) :
    exec i s = .next (effect i (startOperation s)) := by
  by_cases hi : i = .init
  · subst hi
    rfl
  · obtain ⟨hl, ht⟩ := h.resolve_left hi
    rw [exec_eq_onLive hi, onLive_live hl]
    exact answer_of_tick ht

/-- Why a breach of the duties is refused: by where the instance stands. -/
def breach : Life → Refusal
  | .uninitialised => .notInitialised
  | .live => .tickWentBackwards
  | .ended => .instanceEnded

/-- A host's breach is refused, for the reason its life gives. -/
theorem exec_of_breach {i : Instr} {s : State} (h : ¬ dutyMet i s) : exec i s = .refused (breach s.life) := by
  obtain ⟨hi, hd⟩ := not_or.mp h
  rw [exec_eq_onLive hi]
  cases hs : s.life with
  | uninitialised => exact onLive_uninitialised hs _
  | ended => exact onLive_ended hs _
  | live =>
    obtain ⟨t, ht, hlt⟩ : ∃ t, i = .update t ∧ t < s.lastTick := by
      by_contra hc
      exact hd ⟨hs, fun t ht => Nat.not_lt.mp fun hlt => hc ⟨t, ht, hlt⟩⟩
    subst ht
    exact (onLive_live hs _).trans (if_pos hlt)

theorem exec_of_not_dutyMet {i : Instr} {s : State} (h : ¬ dutyMet i s) : ∃ r, exec i s = .refused r :=
  ⟨_, exec_of_breach h⟩

/-- The inversion of `exec`: if it answers a next state, the duties were kept and the state is the effect. -/
theorem exec_next {i : Instr} {s t : State} (h : exec i s = .next t) :
    dutyMet i s ∧ t = effect i (startOperation s) := by
  by_cases hd : dutyMet i s
  · rw [exec_of_dutyMet hd] at h
    cases h
    exact ⟨hd, rfl⟩
  · obtain ⟨r, hr⟩ := exec_of_not_dutyMet hd
    rw [hr] at h
    cases h

/-- On a live instance every operation but `update` keeps the duties. -/
theorem dutyMet_of_live {i : Instr} {s : State} (hl : s.life = .live) (hi : ∀ t, i ≠ .update t) : dutyMet i s :=
  .inr ⟨hl, fun t ht => absurd ht (hi t)⟩

/-- An `update` on a live instance keeps the duties when its tick is not below the baseline. -/
theorem dutyMet_update {s : State} {t : Nat} (hl : s.life = .live) (ht : s.lastTick ≤ t) : dutyMet (.update t) s :=
  .inr ⟨hl, fun u hu => by cases hu; exact ht⟩

/-- If `init` is not meant, the instance was live. -/
theorem live_of_dutyMet {i : Instr} {s : State} (h : dutyMet i s) (hi : i ≠ .init) : s.life = .live :=
  (h.resolve_left hi).1

end Sys2Proof.Machine
end

