-- ==== Sys2Proof/Laws/Bus.lean ====
section
/-! SUPPORT. What the shared operations of the bus and the keyboard do, one lemma each: the scan and the masked writes bit
by bit, the snapshot, the control write and the keys as one record update. -/

namespace Sys2Proof.Machine

/-- A scan bit is 1 exactly when no selected column has that row pressed (R120). -/
theorem scan_bit (s : State) {r : Nat} (hr : r < 8) :
    (scan s).getLsbD r = decide (∀ c : Fin 8, columnSelected s c = true → (s.kbd[c]).getLsbD r = true) := by
  have key : ∀ (l : List (Fin 8)) (acc : Byte),
      (l.foldl (scanColumn s) acc).getLsbD r =
        (acc.getLsbD r && decide (∀ c ∈ l, columnSelected s c = true → (s.kbd[c]).getLsbD r = true)) := by
    intro l
    induction l with
    | nil => simp
    | cons c l ih =>
      intro acc
      rw [List.foldl_cons, ih, scanColumn]
      by_cases h : columnSelected s c = true <;> simp [h, Bool.and_assoc]
  have all : ∀ c : Fin 8, c ∈ columns := by decide
  have ones : (0xFF : Byte).getLsbD r = true := by
    interval_cases r <;> rfl
  rw [scan, key, ones, Bool.true_and]
  exact decide_eq_decide.mpr ⟨fun h c => h c (all c), fun h c _ => h c⟩

/-- The direction-masked write is the per-bit merge (R90). -/
theorem directionMerge_bit (direction old d : Byte) {b : Nat} (hb : b < 8) :
    (directionMerge direction old d).getLsbD b =
      if direction.getLsbD b then d.getLsbD b else old.getLsbD b := by
  simp only [directionMerge, BitVec.getLsbD_or, BitVec.getLsbD_and, BitVec.getLsbD_not, hb]
  cases direction.getLsbD b <;> simp

/-- The mask blend is the source's formula (R103). -/
theorem maskBlend_bit (old d : Byte) {b : Nat} (hb : b < 7) :
    (maskBlend old d).getLsbD b = if d.getLsbD b then d[7] else old.getLsbD b := by
  have h7 : (0x7F : Byte).getLsbD b = true := by
    interval_cases b <;> rfl
  have h8 : b < 8 := by omega
  unfold maskBlend
  cases d[7] <;>
    simp only [if_true, if_false, Bool.false_eq_true, BitVec.getLsbD_or, BitVec.getLsbD_and, BitVec.getLsbD_not, h7, h8] <;>
    cases d.getLsbD b <;> simp

/-- The mask blend leaves bit 7 alone (R103). -/
theorem maskBlend_bit7 (old d : Byte) : (maskBlend old d)[7] = old[7] := by
  unfold maskBlend
  cases d[7] <;> simp

theorem directionMerge_idem (direction old d : Byte) :
    directionMerge direction (directionMerge direction old d) d = directionMerge direction old d := by
  apply BitVec.eq_of_getLsbD_eq
  intro b hb
  simp only [directionMerge_bit _ _ _ hb]
  split <;> rfl

theorem maskBlend_idem (old d : Byte) : maskBlend (maskBlend old d) d = maskBlend old d := by
  apply BitVec.eq_of_getLsbD_eq
  intro b hb
  by_cases h : b = 7
  · subst h
    exact maskBlend_bit7 _ _
  · simp only [maskBlend_bit _ _ (show b < 7 by omega)]
    split <;> rfl

/-- The snapshot: the four latched TOD cells and the flag (R84). -/
theorem latchTod_eq (s : State) :
    latchTod s =
      { s with
        latched := { s.latched with
          tod10 := s.real.tod10
          todsec := s.real.todsec
          todmin := s.real.todmin
          todhr := s.real.todhr }
        todLatched := true } := by
  simp [latchTod, copyRealToLatch, getReal, setTodLatched, setLatched]

/-- The hours read delivers the live hours, which the snapshot has just copied (R84). -/
theorem peekHours_eq (s : State) : peekHours s = { latchTod s with result := some s.real.todhr } := by
  rw [peekHours, latchTod_eq]
  rfl

/-- A CRA write: the byte, and the latch into counter A with its LOAD bit (R104). -/
theorem pokeControl_a (d : Byte) (s : State) :
    pokeControl .a d s =
      { s with real := { s.real with
        cra := d
        talo := if d[4] then s.latched.talo else s.real.talo
        tahi := if d[4] then s.latched.tahi else s.real.tahi } } := by
  unfold pokeControl loadBit
  split <;> rfl

/-- A CRB write: the byte, and the latch into counter B with its LOAD bit (R105). -/
theorem pokeControl_b (d : Byte) (s : State) :
    pokeControl .b d s =
      { s with real := { s.real with
        crb := d
        tblo := if d[4] then s.latched.tblo else s.real.tblo
        tbhi := if d[4] then s.latched.tbhi else s.real.tbhi } } := by
  unfold pokeControl loadBit
  split <;> rfl

theorem keyDownBody_restore (s : State) : keyDownBody s.params.restore s = assertNmi s :=
  if_pos rfl

theorem keyDownBody_mapped {k : KeyCode} {s : State} {pos : KeyPosition} (hk : k ≠ s.params.restore)
    (hp : keyPosition s.params k = some pos) : keyDownBody k s = pressKey pos s := by
  rw [keyDownBody, keyDownOf, if_neg hk, hp]

theorem keyDownBody_unknown {k : KeyCode} {s : State} (hk : k ≠ s.params.restore)
    (hp : keyPosition s.params k = none) : keyDownBody k s = s := by
  rw [keyDownBody, keyDownOf, if_neg hk, hp]
  rfl

theorem keyUpBody_restore (s : State) : keyUpBody s.params.restore s = s :=
  if_pos rfl

theorem keyUpBody_mapped {k : KeyCode} {s : State} {pos : KeyPosition} (hk : k ≠ s.params.restore)
    (hp : keyPosition s.params k = some pos) : keyUpBody k s = releaseKey pos s := by
  rw [keyUpBody, keyUpOf, if_neg hk, hp]

theorem keyUpBody_unknown {k : KeyCode} {s : State} (hk : k ≠ s.params.restore)
    (hp : keyPosition s.params k = none) : keyUpBody k s = s := by
  rw [keyUpBody, keyUpOf, if_neg hk, hp]
  rfl

/-- Everything a key press can do (R117). -/
theorem keyDownBody_cases (k : KeyCode) (s : State) :
    (k = s.params.restore ∧ keyDownBody k s = assertNmi s) ∨
      (∃ pos, keyPosition s.params k = some pos ∧ keyDownBody k s = pressKey pos s) ∨
      (keyPosition s.params k = none ∧ keyDownBody k s = s) := by
  unfold keyDownBody keyDownOf
  split
  · exact .inl ⟨‹_›, rfl⟩
  · cases h : keyPosition s.params k with
    | some pos => exact .inr (.inl ⟨pos, rfl, rfl⟩)
    | none => exact .inr (.inr ⟨rfl, rfl⟩)

/-- Everything a key release can do (R118). -/
theorem keyUpBody_cases (k : KeyCode) (s : State) :
    (k = s.params.restore ∧ keyUpBody k s = s) ∨
      (∃ pos, keyPosition s.params k = some pos ∧ keyUpBody k s = releaseKey pos s) ∨
      (keyPosition s.params k = none ∧ keyUpBody k s = s) := by
  unfold keyUpBody keyUpOf
  split
  · exact .inl ⟨‹_›, rfl⟩
  · cases h : keyPosition s.params k with
    | some pos => exact .inr (.inl ⟨pos, rfl, rfl⟩)
    | none => exact .inr (.inr ⟨rfl, rfl⟩)

/-- A key press writes the keyboard and the outputs, nothing else. -/
theorem keyDownBody_frame (k : KeyCode) (s : State) :
    keyDownBody k s = { s with kbd := (keyDownBody k s).kbd, outputs := (keyDownBody k s).outputs } := by
  rcases keyDownBody_cases k s with ⟨_, h⟩ | ⟨_, _, h⟩ | ⟨_, h⟩
  all_goals
    rw [h]
    try rfl

/-- A key release writes the keyboard, nothing else. -/
theorem keyUpBody_frame (k : KeyCode) (s : State) :
    keyUpBody k s = { s with kbd := (keyUpBody k s).kbd } := by
  rcases keyUpBody_cases k s with ⟨_, h⟩ | ⟨_, _, h⟩ | ⟨_, h⟩
  all_goals
    rw [h]
    try rfl

end Sys2Proof.Machine
end

