-- ==== Sys2Proof/Laws/Encoding.lean ====
section
/-! SUPPORT. The fields of a transaction word in natural numbers, and that packing and unpacking them agree (R56, R58). -/

namespace Sys2Proof

/-! ## The register map -/

theorem Reg.index_ofIndex (i : BitVec 4) : (Reg.ofIndex i).index = i := by
  revert i
  decide

theorem Reg.ofIndex_index (r : Reg) : Reg.ofIndex r.index = r := by
  cases r <;> rfl

theorem toNat_index_registerOf (a : Byte) : (registerOf a).index.toNat = a.toNat % 16 := by
  simp [registerOf, Reg.index_ofIndex, BitVec.extractLsb'_toNat]

/-- An address reaches a register exactly when `a mod 16` is its index (R58). -/
theorem registerOf_eq_iff (a : Byte) (r : Reg) : registerOf a = r ↔ a.toNat % 16 = r.index.toNat := by
  rw [← toNat_index_registerOf]
  constructor
  · rintro rfl
    rfl
  · intro h
    rw [← Reg.ofIndex_index (registerOf a), BitVec.eq_of_toNat_eq h, Reg.ofIndex_index]

theorem registerOf_address (r : Reg) : registerOf r.address = r := by
  cases r <;> rfl

/-! ## Fields of a word -/

theorem isPokeWord_eq (w : TransactionWord) : isPokeWord w = decide (0x10000 ≤ w.toNat) := by
  have hw := w.isLt
  rw [isPokeWord, ← BitVec.getLsbD_eq_getElem, BitVec.getLsbD, Nat.testBit_eq_decide_div_mod_eq]
  exact decide_eq_decide.mpr (by omega)

theorem toNat_addressOf (w : TransactionWord) : (addressOf w).toNat = w.toNat / 256 % 256 := by
  simp [addressOf, BitVec.extractLsb'_toNat, Nat.shiftRight_eq_div_pow]

theorem toNat_dataOf (w : TransactionWord) : (dataOf w).toNat = w.toNat % 256 := by
  simp [dataOf, BitVec.extractLsb'_toNat]

theorem toNat_mirrorBits (a : Byte) : (mirrorBits a).toNat = a.toNat / 16 := by
  have := a.isLt
  simp only [mirrorBits, BitVec.extractLsb'_toNat, Nat.shiftRight_eq_div_pow]
  omega

theorem toNat_rowWord (p : Bool) (i : BitVec 4) (a d : Byte) :
    (rowWord p i a d).toNat = p.toNat * 0x10000 + a.toNat / 16 * 0x1000 + i.toNat * 0x100 + d.toNat := by
  have := a.isLt
  have := d.isLt
  have := i.isLt
  have := p.toNat_le
  simp only [rowWord, BitVec.toNat_ofNat, toNat_mirrorBits]
  omega

/-- A row's word whose address reaches the row's register has the fields it was made of. -/
theorem rowWord_fields (p : Bool) {r : Reg} {a : Byte} (d : Byte) (h : registerOf a = r) :
    isPokeWord (rowWord p r.index a d) = p ∧ addressOf (rowWord p r.index a d) = a ∧
      dataOf (rowWord p r.index a d) = d := by
  rw [registerOf_eq_iff] at h
  have := a.isLt
  have := d.isLt
  have := r.index.isLt
  have := p.toNat_le
  refine ⟨?_, BitVec.eq_of_toNat_eq ?_, BitVec.eq_of_toNat_eq ?_⟩
  · rw [isPokeWord_eq, toNat_rowWord]
    cases p <;> simp <;> omega
  · rw [toNat_addressOf, toNat_rowWord]
    omega
  · rw [toNat_dataOf, toNat_rowWord]
    omega

/-- Any word is the row's word of its own fields. -/
theorem rowWord_of_fields (w : TransactionWord) :
    rowWord (isPokeWord w) (registerOf (addressOf w)).index (addressOf w) (dataOf w) = w := by
  have := w.isLt
  apply BitVec.eq_of_toNat_eq
  rw [toNat_rowWord, toNat_index_registerOf, toNat_addressOf, toNat_dataOf, isPokeWord_eq]
  by_cases h : 0x10000 ≤ w.toNat <;> simp [h] <;> omega

/-- The packing of R56 has the fields it was made of. -/
theorem packWord_fields (p : Bool) (a d : Byte) :
    isPokeWord (packWord p a d) = p ∧ addressOf (packWord p a d) = a ∧ dataOf (packWord p a d) = d := by
  have := a.isLt
  have := d.isLt
  have := p.toNat_le
  refine ⟨?_, BitVec.eq_of_toNat_eq ?_, BitVec.eq_of_toNat_eq ?_⟩
  · rw [isPokeWord_eq, packWord, BitVec.toNat_ofNat]
    cases p <;> simp <;> omega
  · rw [toNat_addressOf, packWord, BitVec.toNat_ofNat]
    omega
  · rw [toNat_dataOf, packWord, BitVec.toNat_ofNat]
    omega

theorem decodeWord_packWord (p : Bool) (a d : Byte) :
    decodeWord (packWord p a d) = if p then pokeOf (registerOf a) a d else peekOf (registerOf a) a d := by
  obtain ⟨h1, h2, h3⟩ := packWord_fields p a d
  rw [decodeWord, h1, h2, h3]

/-! ## A word under the table's mask (R65) -/

theorem isPokeWord_mask (w : TransactionWord) : isPokeWord (w &&& tableMask) = isPokeWord w := by
  rw [isPokeWord, BitVec.getElem_and, show tableMask[16] = true by decide, Bool.and_true, isPokeWord]

theorem dataOf_mask (w : TransactionWord) : dataOf (w &&& tableMask) = 0 := by
  apply BitVec.eq_of_getLsbD_eq
  intro k h
  have hk : tableMask.getLsbD k = false := by
    revert k
    decide
  simp only [dataOf, BitVec.getLsbD_extractLsb', BitVec.getLsbD_and, Nat.zero_add, hk]
  simp

theorem addressOf_mask (w : TransactionWord) :
    addressOf (w &&& tableMask) = (registerOf (addressOf w)).address := by
  apply BitVec.eq_of_getLsbD_eq
  intro k h
  have e : tableMask.getLsbD (8 + k) = decide (k < 4) := by
    revert k
    decide
  simp only [addressOf, BitVec.getLsbD_extractLsb', BitVec.getLsbD_and, e, Reg.address, registerOf, Reg.index_ofIndex,
    BitVec.getLsbD_setWidth]
  by_cases hk : k < 4 <;> simp [h, hk]

/-- A word under the mask keeps W and the register index, and nothing else. -/
theorem mask_eq_rowWord (w : TransactionWord) :
    w &&& tableMask = rowWord (isPokeWord w) (registerOf (addressOf w)).index 0 0 := by
  rw [← rowWord_of_fields (w &&& tableMask), isPokeWord_mask, dataOf_mask, addressOf_mask, registerOf_address]
  cases registerOf (addressOf w) <;> rfl

/-! ## The words of a row -/

theorem peekWordIs (r : Reg) (a x : Byte) : Machine.PeekWordIs r.index.toNat a x (peekOf r a x) := by
  intro h
  rw [decodeWord_packWord, (registerOf_eq_iff a r).mpr h]
  rfl

theorem pokeWordIs (r : Reg) (a d : Byte) : Machine.PokeWordIs r.index.toNat a d (pokeOf r a d) := by
  intro h
  rw [decodeWord_packWord, (registerOf_eq_iff a r).mpr h]
  rfl

end Sys2Proof
end

