-- ==== Sys2Proof/Laws/Keys.lean ====
section
/-! SUPPORT. The key code type, the key table and the restore code as arguments (R6): renaming the codes one to one changes
nothing, and a listed table can agree with any function on the codes a run uses. -/

namespace Sys2Proof.Machine

@[simp] theorem keyPosition_listed (p : Params) (es : List (KeyCode × KeyPosition)) (k : KeyCode) :
    keyPosition { p with keyTable := .listed es } k = es.lookup k := rfl

@[simp] theorem keyPosition_uninterpreted (p : Params) (k : KeyCode) :
    keyPosition { p with keyTable := .uninterpreted } k = Config.keyTable k := rfl

/-- A press goes by the table's entry for the code alone, so codes of another type may stand for it. -/
theorem keyDownOf_rename {K L : Type} [DecidableEq K] [DecidableEq L] {code : K → L} (hc : Function.Injective code)
    (table : L → Option KeyPosition) (restore k : K) (s : State) :
    keyDownOf table (code restore) (code k) s = keyDownOf (table ∘ code) restore k s := by
  simp only [keyDownOf, hc.eq_iff, Function.comp]

/-- So does a release. -/
theorem keyUpOf_rename {K L : Type} [DecidableEq K] [DecidableEq L] {code : K → L} (hc : Function.Injective code)
    (table : L → Option KeyPosition) (restore k : K) (s : State) :
    keyUpOf table (code restore) (code k) s = keyUpOf (table ∘ code) restore k s := by
  simp only [keyUpOf, hc.eq_iff, Function.comp]

/-- The list of entries that a function gives the codes of a list. -/
def entriesOf (f : KeyCode → Option KeyPosition) (ks : List KeyCode) : List (KeyCode × KeyPosition) :=
  ks.filterMap fun k => (f k).map (k, ·)

/-- A listed table agrees with any function on any finitely many codes. -/
theorem lookup_entriesOf (f : KeyCode → Option KeyPosition) (ks : List KeyCode) (k : KeyCode) :
    (entriesOf f ks).lookup k = if k ∈ ks then f k else none := by
  induction ks with
  | nil => rfl
  | cons j ks ih =>
    by_cases hj : k = j
    · subst hj
      cases hf : f k with
      | none =>
        have : entriesOf f (k :: ks) = entriesOf f ks := by simp [entriesOf, hf]
        rw [this, ih, hf]
        simp
      | some pos => simp [entriesOf, hf]
    · have hb : (k == j) = false := beq_false_of_ne hj
      cases hf : f j with
      | none =>
        have : entriesOf f (j :: ks) = entriesOf f ks := by simp [entriesOf, hf]
        rw [this, ih]
        simp [hj]
      | some pos =>
        have : entriesOf f (j :: ks) = (j, pos) :: entriesOf f ks := by simp [entriesOf, hf]
        rw [this, List.lookup_cons, hb, ih]
        simp [hj]

end Sys2Proof.Machine
end

