-- ==== Sys2Proof/Laws/PerInstr.lean ====
section
/-! SUPPORT. A statement made of every instruction, one lemma per constructor: the word that encodes an
instruction, under the mask of spec/opcode_table.json, is the match value of the instruction's own row (R65). -/

namespace Sys2Proof.Laws.RowMatch

open Sys2Proof

/-- The encoded word of an instruction lies in the row of its constructor; a host operation has no word. -/
def Statement (i : Instr) : Prop :=
  ∀ w, encode i = .bus w → tableMatch i = some (w &&& tableMask)

/-- A row's word under the mask keeps W and the register index alone. -/
theorem rowWord_mask (p : Bool) (n : BitVec 4) (a d : Byte) :
    rowWord p n a d &&& tableMask = BitVec.ofNat 17 (p.toNat * 0x10000 + n.toNat * 0x100) := by
  have := a.isLt
  have := d.isLt
  have := n.isLt
  have := p.toNat_le
  have h1 : isPokeWord (rowWord p n a d) = p := by
    rw [isPokeWord_eq, toNat_rowWord]
    cases p <;> simp <;> omega
  have h2 : (registerOf (addressOf (rowWord p n a d))).index = n := by
    apply BitVec.eq_of_toNat_eq
    rw [toNat_index_registerOf, toNat_addressOf, toNat_rowWord]
    omega
  rw [mask_eq_rowWord, h1, h2]
  simp [rowWord, mirrorBits]

/-- An instruction that encodes to a row's word has the match value of that row. -/
theorem of_rowWord {i : Instr} {p : Bool} {n : BitVec 4} {a d : Byte} (he : encode i = .bus (rowWord p n a d))
    (hm : tableMatch i = some (BitVec.ofNat 17 (p.toNat * 0x10000 + n.toNat * 0x100))) : Statement i := by
  intro w h
  rw [he] at h
  cases h
  rw [hm, rowWord_mask]

theorem peekPra (a x : Byte) : Statement (.peekPra a x) :=
  of_rowWord rfl rfl

theorem peekPrb (a x : Byte) : Statement (.peekPrb a x) :=
  of_rowWord rfl rfl

theorem peekDdra (a x : Byte) : Statement (.peekDdra a x) :=
  of_rowWord rfl rfl

theorem peekDdrb (a x : Byte) : Statement (.peekDdrb a x) :=
  of_rowWord rfl rfl

theorem peekTalo (a x : Byte) : Statement (.peekTalo a x) :=
  of_rowWord rfl rfl

theorem peekTahi (a x : Byte) : Statement (.peekTahi a x) :=
  of_rowWord rfl rfl

theorem peekTblo (a x : Byte) : Statement (.peekTblo a x) :=
  of_rowWord rfl rfl

theorem peekTbhi (a x : Byte) : Statement (.peekTbhi a x) :=
  of_rowWord rfl rfl

theorem peekTod10 (a x : Byte) : Statement (.peekTod10 a x) :=
  of_rowWord rfl rfl

theorem peekTodsec (a x : Byte) : Statement (.peekTodsec a x) :=
  of_rowWord rfl rfl

theorem peekTodmin (a x : Byte) : Statement (.peekTodmin a x) :=
  of_rowWord rfl rfl

theorem peekTodhr (a x : Byte) : Statement (.peekTodhr a x) :=
  of_rowWord rfl rfl

theorem peekSdr (a x : Byte) : Statement (.peekSdr a x) :=
  of_rowWord rfl rfl

theorem peekIcr (a x : Byte) : Statement (.peekIcr a x) :=
  of_rowWord rfl rfl

theorem peekCra (a x : Byte) : Statement (.peekCra a x) :=
  of_rowWord rfl rfl

theorem peekCrb (a x : Byte) : Statement (.peekCrb a x) :=
  of_rowWord rfl rfl

theorem pokePra (a d : Byte) : Statement (.pokePra a d) :=
  of_rowWord rfl rfl

theorem pokePrb (a d : Byte) : Statement (.pokePrb a d) :=
  of_rowWord rfl rfl

theorem pokeDdra (a d : Byte) : Statement (.pokeDdra a d) :=
  of_rowWord rfl rfl

theorem pokeDdrb (a d : Byte) : Statement (.pokeDdrb a d) :=
  of_rowWord rfl rfl

theorem pokeTalo (a d : Byte) : Statement (.pokeTalo a d) :=
  of_rowWord rfl rfl

theorem pokeTahi (a d : Byte) : Statement (.pokeTahi a d) :=
  of_rowWord rfl rfl

theorem pokeTblo (a d : Byte) : Statement (.pokeTblo a d) :=
  of_rowWord rfl rfl

theorem pokeTbhi (a d : Byte) : Statement (.pokeTbhi a d) :=
  of_rowWord rfl rfl

theorem pokeTod10 (a d : Byte) : Statement (.pokeTod10 a d) :=
  of_rowWord rfl rfl

theorem pokeTodsec (a d : Byte) : Statement (.pokeTodsec a d) :=
  of_rowWord rfl rfl

theorem pokeTodmin (a d : Byte) : Statement (.pokeTodmin a d) :=
  of_rowWord rfl rfl

theorem pokeTodhr (a d : Byte) : Statement (.pokeTodhr a d) :=
  of_rowWord rfl rfl

theorem pokeSdr (a d : Byte) : Statement (.pokeSdr a d) :=
  of_rowWord rfl rfl

theorem pokeIcr (a d : Byte) : Statement (.pokeIcr a d) :=
  of_rowWord rfl rfl

theorem pokeCra (a d : Byte) : Statement (.pokeCra a d) :=
  of_rowWord rfl rfl

theorem pokeCrb (a d : Byte) : Statement (.pokeCrb a d) :=
  of_rowWord rfl rfl

theorem update (t : Nat) : Statement (.update t) :=
  fun _ h => by cases h

theorem keyDown (k : KeyCode) : Statement (.keyDown k) :=
  fun _ h => by cases h

theorem keyUp (k : KeyCode) : Statement (.keyUp k) :=
  fun _ h => by cases h

theorem init : Statement .init :=
  fun _ h => by cases h

theorem destroy : Statement .destroy :=
  fun _ h => by cases h

end Sys2Proof.Laws.RowMatch
end

