-- ==== Sys2Proof/Laws/Timers.lean ====
section
/-! SUPPORT. Everything the timer engine's shared operations can do, said once in natural numbers: the two-byte views, the
countdown and its underflow test (R109), the underflow's steps (R110), one count of each timer. -/

namespace Sys2Proof.Machine

/-! ## Two-byte values -/

theorem pairValue_lt (hi lo : Byte) : pairValue hi lo < 65536 := by
  have := hi.isLt
  have := lo.isLt
  unfold pairValue
  omega

theorem toNat_u16 (hi lo : Byte) : (u16 hi lo).toNat = pairValue hi lo := by
  have := hi.isLt
  have := lo.isLt
  have h256 : (256 : Half).toNat = 256 := rfl
  simp only [u16, pairValue, BitVec.toNat_add, BitVec.toNat_mul, BitVec.toNat_setWidth, h256]
  omega

theorem lowByte_eq (v : Half) : lowByte v = BitVec.ofNat 8 v.toNat := by
  apply BitVec.eq_of_toNat_eq
  simp [lowByte, BitVec.extractLsb'_toNat]

theorem highByte_eq (v : Half) : highByte v = BitVec.ofNat 8 (v.toNat / 256) := by
  apply BitVec.eq_of_toNat_eq
  simp [highByte, BitVec.extractLsb'_toNat, Nat.shiftRight_eq_div_pow]

/-- The low byte of a pair's value is the low byte. -/
theorem ofNat_pairValue_low (hi lo : Byte) : BitVec.ofNat 8 (pairValue hi lo) = lo := by
  apply BitVec.eq_of_toNat_eq
  have := lo.isLt
  rw [BitVec.toNat_ofNat, pairValue]
  omega

/-- The high byte of a pair's value is the high byte. -/
theorem ofNat_pairValue_high (hi lo : Byte) : BitVec.ofNat 8 (pairValue hi lo / 256) = hi := by
  apply BitVec.eq_of_toNat_eq
  have := lo.isLt
  have := hi.isLt
  rw [BitVec.toNat_ofNat, pairValue]
  omega

/-- A value below 2^16 is the value of its two bytes. -/
theorem pairValue_ofNat {n : Nat} (h : n < 65536) :
    pairValue (BitVec.ofNat 8 (n / 256)) (BitVec.ofNat 8 n) = n := by
  simp only [pairValue, BitVec.toNat_ofNat]
  omega

theorem toNat_counter_a (s : State) : (counter .a s).toNat = counterA s := toNat_u16 _ _
theorem toNat_counter_b (s : State) : (counter .b s).toNat = counterB s := toNat_u16 _ _
theorem toNat_latch_a (s : State) : (latch .a s).toNat = latchA s := toNat_u16 _ _
theorem toNat_latch_b (s : State) : (latch .b s).toNat = latchB s := toNat_u16 _ _

theorem setCounter_a (v : Half) (s : State) :
    setCounter .a v s =
      { s with real := { s.real with talo := BitVec.ofNat 8 v.toNat, tahi := BitVec.ofNat 8 (v.toNat / 256) } } := by
  rw [← lowByte_eq, ← highByte_eq]
  rfl

theorem setCounter_b (v : Half) (s : State) :
    setCounter .b v s =
      { s with real := { s.real with tblo := BitVec.ofNat 8 v.toNat, tbhi := BitVec.ofNat 8 (v.toNat / 256) } } := by
  rw [← lowByte_eq, ← highByte_eq]
  rfl

/-! ## Countdown -/

theorem toNat_countdown (v : Half) (n : Nat) :
    (countdown v n).toNat = (v.toNat + 65536 - n % 65536) % 65536 := by
  have := v.isLt
  rw [countdown, BitVec.toNat_sub, BitVec.toNat_ofNat]
  omega

/-- The wraparound test says exactly that `n mod 2^16` exceeds the counter (R109). -/
theorem wrapped_countdown (v : Half) (n : Nat) : wrapped v (countdown v n) = underflowsAt v.toNat n := by
  have := v.isLt
  refine decide_eq_decide.mpr ?_
  rw [BitVec.lt_def, toNat_countdown]
  omega

/-- Without an underflow the counter is the difference. -/
theorem toNat_countdown_of_not_underflowsAt {v : Half} {n : Nat} (h : underflowsAt v.toNat n = false) :
    (countdown v n).toNat = v.toNat - n % 65536 := by
  have := v.isLt
  have h' : n % 65536 ≤ v.toNat := Nat.not_lt.mp (of_decide_eq_false h)
  rw [toNat_countdown]
  omega

theorem countedFrom_zero (c l : Nat) : countedFrom c l 0 = c := by
  simp [countedFrom, underflowsAt]

theorem underflowsAt_zero (c : Nat) : underflowsAt c 0 = false := by
  simp [underflowsAt]

theorem countedFrom_lt {c l : Nat} (n : Nat) (hc : c < 65536) (hl : l < 65536) : countedFrom c l n < 65536 := by
  unfold countedFrom
  split <;> omega

theorem controlAfter_false (cr : Byte) : controlAfter cr false = cr := rfl

/-! ## The mask and the underflow -/

theorem and_one_ne_zero (x : Byte) : (x &&& 0x01 != 0) = x[0] := by
  rw [Bool.eq_iff_iff, bne_iff_ne, ne_eq]
  constructor
  · intro h
    by_contra hx
    refine h (BitVec.eq_of_getLsbD_eq fun i hi => ?_)
    interval_cases i <;> simp_all
  · intro h h0
    have := congrArg (fun y : Byte => y[0]) h0
    simp [h] at this

theorem and_two_ne_zero (x : Byte) : (x &&& 0x02 != 0) = x[1] := by
  rw [Bool.eq_iff_iff, bne_iff_ne, ne_eq]
  constructor
  · intro h
    by_contra hx
    refine h (BitVec.eq_of_getLsbD_eq fun i hi => ?_)
    interval_cases i <;> simp_all
  · intro h h0
    have := congrArg (fun y : Byte => y[1]) h0
    simp [h] at this

theorem maskEnables_a (s : State) : maskEnables s .a = s.real.icr[0] := and_one_ne_zero _
theorem maskEnables_b (s : State) : maskEnables s .b = s.real.icr[1] := and_two_ne_zero _

/-- Timer A's underflow, steps a to e at once (R110). -/
theorem underflow_a (s : State) :
    underflow .a s =
      { s with
        real := { s.real with
          talo := s.latched.talo
          tahi := s.latched.tahi
          cra := controlAfter s.real.cra true }
        isr := s.isr ||| 0x01 ||| bitsWhen s.real.icr[0] 0x80
        outputs := s.outputs ++ irqWhen s.real.icr[0] } := by
  have hm : ∀ u : State, u.real.icr = s.real.icr → maskEnables u .a = s.real.icr[0] :=
    fun u hu => by rw [maskEnables_a, hu]
  have hl : BitVec.ofNat 8 (pairValue s.latched.tahi s.latched.talo) = s.latched.talo := ofNat_pairValue_low _ _
  have hh : BitVec.ofNat 8 (pairValue s.latched.tahi s.latched.talo / 256) = s.latched.tahi := ofNat_pairValue_high _ _
  rw [underflow, signalPortB, reload, setCounter_a, toNat_latch_a, interruptIfEnabled]
  cases hs : s.real.cra[3] <;> cases hi : s.real.icr[0] <;>
    simp [stopIfOneShot, oneShotBit, getReal, crReg, hs, hi, hm, setStatus, statusBit, setIsr, setReal, assertIrq, emit,
      masterBit, clearStart, controlAfter, bitsWhen, irqWhen, latchA, hl, hh]

/-- Timer B's underflow, steps a to e at once (R110). -/
theorem underflow_b (s : State) :
    underflow .b s =
      { s with
        real := { s.real with
          tblo := s.latched.tblo
          tbhi := s.latched.tbhi
          crb := controlAfter s.real.crb true }
        isr := s.isr ||| 0x02 ||| bitsWhen s.real.icr[1] 0x80
        outputs := s.outputs ++ irqWhen s.real.icr[1] } := by
  have hm : ∀ u : State, u.real.icr = s.real.icr → maskEnables u .b = s.real.icr[1] :=
    fun u hu => by rw [maskEnables_b, hu]
  have hl : BitVec.ofNat 8 (pairValue s.latched.tbhi s.latched.tblo) = s.latched.tblo := ofNat_pairValue_low _ _
  have hh : BitVec.ofNat 8 (pairValue s.latched.tbhi s.latched.tblo / 256) = s.latched.tbhi := ofNat_pairValue_high _ _
  rw [underflow, signalPortB, reload, setCounter_b, toNat_latch_b, interruptIfEnabled]
  cases hs : s.real.crb[3] <;> cases hi : s.real.icr[1] <;>
    simp [stopIfOneShot, oneShotBit, getReal, crReg, hs, hi, hm, setStatus, statusBit, setIsr, setReal, assertIrq, emit,
      masterBit, clearStart, controlAfter, bitsWhen, irqWhen, latchB, hl, hh]

/-! ## One count of each timer -/

/-- The state after `count(A, n)`. -/
def afterCountA (s : State) (n : Nat) : State :=
  let u := underflowsAt (counterA s) n
  { s with
    real := { s.real with
      talo := BitVec.ofNat 8 (countedFrom (counterA s) (latchA s) n)
      tahi := BitVec.ofNat 8 (countedFrom (counterA s) (latchA s) n / 256)
      cra := controlAfter s.real.cra u }
    isr := s.isr ||| bitsWhen u 0x01 ||| bitsWhen (u && s.real.icr[0]) 0x80
    outputs := s.outputs ++ irqWhen (u && s.real.icr[0]) }

/-- The state after `count(B, n)`. -/
def afterCountB (s : State) (n : Nat) : State :=
  let u := underflowsAt (counterB s) n
  { s with
    real := { s.real with
      tblo := BitVec.ofNat 8 (countedFrom (counterB s) (latchB s) n)
      tbhi := BitVec.ofNat 8 (countedFrom (counterB s) (latchB s) n / 256)
      crb := controlAfter s.real.crb u }
    isr := s.isr ||| bitsWhen u 0x02 ||| bitsWhen (u && s.real.icr[1]) 0x80
    outputs := s.outputs ++ irqWhen (u && s.real.icr[1]) }

theorem count_a (n : Nat) (s : State) : count .a n s = (afterCountA s n, underflowsAt (counterA s) n) := by
  rw [count, wrapped_countdown, toNat_counter_a]
  cases hu : underflowsAt (counterA s) n
  · have hv : (countdown (counter .a s) n).toNat = counterA s - n % 65536 := by
      rw [← toNat_counter_a]
      exact toNat_countdown_of_not_underflowsAt (by rw [toNat_counter_a]; exact hu)
    simp [afterCountA, hu, setCounter_a, hv, countedFrom, controlAfter_false, bitsWhen, irqWhen]
  · simp only [if_true, underflow_a, setCounter_a, afterCountA, hu, countedFrom, Bool.true_and, latchA,
      ofNat_pairValue_low, ofNat_pairValue_high, bitsWhen]
    rfl

theorem count_b (n : Nat) (s : State) : count .b n s = (afterCountB s n, underflowsAt (counterB s) n) := by
  rw [count, wrapped_countdown, toNat_counter_b]
  cases hu : underflowsAt (counterB s) n
  · have hv : (countdown (counter .b s) n).toNat = counterB s - n % 65536 := by
      rw [← toNat_counter_b]
      exact toNat_countdown_of_not_underflowsAt (by rw [toNat_counter_b]; exact hu)
    simp [afterCountB, hu, setCounter_b, hv, countedFrom, controlAfter_false, bitsWhen, irqWhen]
  · simp only [if_true, underflow_b, setCounter_b, afterCountB, hu, countedFrom, Bool.true_and, latchB,
      ofNat_pairValue_low, ofNat_pairValue_high, bitsWhen]
    rfl

/-- A count of 0 changes nothing. -/
theorem afterCountA_zero (s : State) : afterCountA s 0 = s := by
  simp [afterCountA, underflowsAt_zero, countedFrom_zero, controlAfter_false, bitsWhen, irqWhen, counterA, ofNat_pairValue_low,
    ofNat_pairValue_high]

theorem afterCountB_zero (s : State) : afterCountB s 0 = s := by
  simp [afterCountB, underflowsAt_zero, countedFrom_zero, controlAfter_false, bitsWhen, irqWhen, counterB, ofNat_pairValue_low,
    ofNat_pairValue_high]

/-! ## The two steps of an `update` -/

/-- Timer A's step is a count by its amount, and `uA` is its underflow (R111). -/
theorem timerAStep_eq (n : Nat) (s : State) :
    timerAStep n s = (afterCountA s (amountA s n), underflowsA s n) := by
  unfold timerAStep underflowsA amountA
  cases h0 : s.real.cra[0] <;> cases h5 : s.real.cra[5] <;>
    simp [startBit, pulsePinA, getReal, h0, h5, countPulsePin, count_a, afterCountA_zero, underflowsAt_zero]

/-- Timer B's step is a count by the amount its source code gives (R112). -/
theorem timerBStep_eq (n : Nat) (uA : Bool) (s : State) :
    timerBStep n uA s =
      afterCountB s
        (if s.real.crb[0] then
          match s.real.crb[6], s.real.crb[5] with
          | false, false => n
          | true, false => if uA then 1 else 0
          | _, true => 0
        else 0) := by
  unfold timerBStep sourceB
  cases h0 : s.real.crb[0] <;> cases h6 : s.real.crb[6] <;> cases h5 : s.real.crb[5] <;>
    cases uA <;>
    simp [startBit, getReal, h0, h5, h6, countPulsePin, countPulsePinAndCascade, count_b, afterCountB_zero]

/-! ## Setting status bits -/

/-- The bits the two counts set, in whatever order, are those of `isrAfterUpdate` (R110, R127). -/
theorem isr_bits_of_two_counts (x : Byte) (uA uB iA iB : Bool) :
    x ||| bitsWhen uA 0x01 ||| bitsWhen iA 0x80 ||| bitsWhen uB 0x02 ||| bitsWhen iB 0x80 =
      x ||| bitsWhen uA 0x01 ||| bitsWhen uB 0x02 ||| bitsWhen (iA || iB) 0x80 := by
  cases uA <;> cases uB <;> cases iA <;> cases iB <;> simp only [bitsWhen, if_true, if_false, Bool.false_eq_true,
    Bool.or_true, Bool.or_false, Bool.or_self, BitVec.or_assoc] <;> rfl

/-! ## Both steps -/

/-- The timers' share of an `update`, both steps at once: everything it can do (R107 to R113). -/
theorem timersStep_eq (n : Nat) (s : State) :
    timersStep n s =
      { s with
        real := realAfterUpdate s n
        isr := isrAfterUpdate s n
        outputs := s.outputs ++ irqsOfUpdate s n } := by
  have hb : timerBStep n (underflowsA s n) (afterCountA s (amountA s n)) =
      afterCountB (afterCountA s (amountA s n)) (amountB s n) := timerBStep_eq _ _ _
  rw [timersStep, timerAStep_eq, hb]
  have hA : underflowsAt (counterA s) (amountA s n) = underflowsA s n := rfl
  simp only [afterCountB, afterCountA, hA, isr_bits_of_two_counts, List.append_assoc]
  rfl

end Sys2Proof.Machine
end

