-- ==== Sys2Proof/Tests/Slice0.lean ====
section
/-! SUPPORT. The model's own tests. Expected values come from the spec's encodings (R56, R65, R70, R71), its key table (R121) and
its test vectors (95_test_vectors.md, named at each test), or from the rules by hand. The last part shows, for each
statement with hypotheses, a state and operands that meet them. -/

namespace Sys2Proof.Tests

open Sys2Proof Sys2Proof.Machine

/-! ## Helpers -/

/-- A view of the next state, if there is one. -/
def after {α : Type} (o : Host.Outcome State Fault Refusal) (view : State → α) : Option α :=
  match o with
  | .next s => some (view s)
  | .fault _ => none
  | .refused _ => none

/-- The reason of a refusal, if there is one. -/
def refusal (o : Host.Outcome State Fault Refusal) : Option Refusal :=
  match o with
  | .next _ => none
  | .fault _ => none
  | .refused r => some r

/-- The byte a peek delivers. -/
def delivers (i : Instr) (s : State) : Option Byte :=
  (after (exec i s) (·.result)).join

/-- A live plane with a byte of its own in each register. -/
def liveBytes : Bank :=
  { pra := 0x0F, prb := 0x5A, ddra := 0xF0, ddrb := 0x33, talo := 0x23, tahi := 0x01, tblo := 0x04, tbhi := 0x07,
    tod10 := 0x05, todsec := 0x20, todmin := 0x30, todhr := 0x11, sdr := 0x6B, icr := 0x55, cra := 0x08, crb := 0x40 }

/-- A latched plane with a byte of its own in each register. -/
def latchedBytes : Bank :=
  { pra := 0xE0, prb := 0xE1, ddra := 0xE2, ddrb := 0xE3, talo := 0x00, tahi := 0x10, tblo := 0x09, tbhi := 0x02,
    tod10 := 0x06, todsec := 0x21, todmin := 0x31, todhr := 0x12, sdr := 0xEC, icr := 0xED, cra := 0xEE, crb := 0xEF }

/-- A live state with those planes, `isr` 0x81, key A (column 1, row 2) and key Q (column 7, row 6) pressed. -/
def marked : State :=
  { State.reset with
    real := liveBytes
    latched := latchedBytes
    isr := 0x81
    kbd := (State.reset.kbd.set 1 0xFB).set 7 0xBF
    lastTick := 100 }

/-- A state after reset but for its timers, mask and baseline. -/
def timers (cra crb icr : Byte) (counterA latchA counterB latchB : Byte) : State :=
  { State.reset with
    real := { State.reset.real with cra := cra, crb := crb, icr := icr, talo := counterA, tblo := counterB }
    latched := { State.reset.latched with talo := latchA, tblo := latchB } }

/-- A state after reset with calls pending. -/
def calling (cs : List Call) : State :=
  { State.reset with pending := cs }

/-! ## Decoding: one word of each row, written out from its pattern (R65) -/

/-- Rows `0mmmm0000xxxxxxxx` to `0mmmm0111xxxxxxxx`. -/
theorem test_decode_peeks_of_ports_and_timers :
    decodeTableWord 24 0b0_0011_0000_0101_1010 = some (.peekPra 0x30 0x5A) ∧
    decodeTableWord 24 0b0_1000_0001_0111_1111 = some (.peekPrb 0x81 0x7F) ∧
    decodeTableWord 24 0b0_1101_0010_1010_0100 = some (.peekDdra 0xD2 0xA4) ∧
    decodeTableWord 24 0b0_0010_0011_1100_1001 = some (.peekDdrb 0x23 0xC9) ∧
    decodeTableWord 24 0b0_0111_0100_1110_1110 = some (.peekTalo 0x74 0xEE) ∧
    decodeTableWord 24 0b0_1100_0101_0001_0011 = some (.peekTahi 0xC5 0x13) ∧
    decodeTableWord 24 0b0_0001_0110_0011_1000 = some (.peekTblo 0x16 0x38) ∧
    decodeTableWord 24 0b0_0110_0111_0101_1101 = some (.peekTbhi 0x67 0x5D) := by
  decide

/-- Rows `0mmmm1000xxxxxxxx` to `0mmmm1111xxxxxxxx`. -/
theorem test_decode_peeks_of_tod_and_control :
    decodeTableWord 24 0b0_1011_1000_1000_0010 = some (.peekTod10 0xB8 0x82) ∧
    decodeTableWord 24 0b0_0000_1001_1010_0111 = some (.peekTodsec 0x09 0xA7) ∧
    decodeTableWord 24 0b0_0101_1010_1100_1100 = some (.peekTodmin 0x5A 0xCC) ∧
    decodeTableWord 24 0b0_1010_1011_1111_0001 = some (.peekTodhr 0xAB 0xF1) ∧
    decodeTableWord 24 0b0_1111_1100_0001_0110 = some (.peekSdr 0xFC 0x16) ∧
    decodeTableWord 24 0b0_0100_1101_0011_1011 = some (.peekIcr 0x4D 0x3B) ∧
    decodeTableWord 24 0b0_1001_1110_0110_0000 = some (.peekCra 0x9E 0x60) ∧
    decodeTableWord 24 0b0_1110_1111_1000_0101 = some (.peekCrb 0xEF 0x85) := by
  decide

/-- Rows `1mmmm0000dddddddd` to `1mmmm0111dddddddd`. -/
theorem test_decode_pokes_of_ports_and_timers :
    decodeTableWord 24 0b1_0011_0000_0101_1010 = some (.pokePra 0x30 0x5A) ∧
    decodeTableWord 24 0b1_1000_0001_0111_1111 = some (.pokePrb 0x81 0x7F) ∧
    decodeTableWord 24 0b1_1101_0010_1010_0100 = some (.pokeDdra 0xD2 0xA4) ∧
    decodeTableWord 24 0b1_0010_0011_1100_1001 = some (.pokeDdrb 0x23 0xC9) ∧
    decodeTableWord 24 0b1_0111_0100_1110_1110 = some (.pokeTalo 0x74 0xEE) ∧
    decodeTableWord 24 0b1_1100_0101_0001_0011 = some (.pokeTahi 0xC5 0x13) ∧
    decodeTableWord 24 0b1_0001_0110_0011_1000 = some (.pokeTblo 0x16 0x38) ∧
    decodeTableWord 24 0b1_0110_0111_0101_1101 = some (.pokeTbhi 0x67 0x5D) := by
  decide

/-- Rows `1mmmm1000dddddddd` to `1mmmm1111dddddddd`. -/
theorem test_decode_pokes_of_tod_and_control :
    decodeTableWord 24 0b1_1011_1000_1000_0010 = some (.pokeTod10 0xB8 0x82) ∧
    decodeTableWord 24 0b1_0000_1001_1010_0111 = some (.pokeTodsec 0x09 0xA7) ∧
    decodeTableWord 24 0b1_0101_1010_1100_1100 = some (.pokeTodmin 0x5A 0xCC) ∧
    decodeTableWord 24 0b1_1010_1011_1111_0001 = some (.pokeTodhr 0xAB 0xF1) ∧
    decodeTableWord 24 0b1_1111_1100_0001_0110 = some (.pokeSdr 0xFC 0x16) ∧
    decodeTableWord 24 0b1_0100_1101_0011_1011 = some (.pokeIcr 0x4D 0x3B) ∧
    decodeTableWord 24 0b1_1001_1110_0110_0000 = some (.pokeCra 0x9E 0x60) ∧
    decodeTableWord 24 0b1_1110_1111_1000_0101 = some (.pokeCrb 0xEF 0x85) := by
  decide

/-- The host operations have no word; the call is the instruction (R57). -/
theorem test_decode_host_operations :
    decode (.update 7) = .update 7 ∧ decode (.keyDown (.named .a)) = .keyDown (.named .a) ∧
      decode (.keyUp (.named .a)) = .keyUp (.named .a) ∧ decode .init = .init ∧ decode .destroy = .destroy := by
  decide

/-- The lowest word, the highest word, and the first number that is no word (R56). -/
theorem test_decode_bounds :
    decodeTableWord 24 0 = some (.peekPra 0 0) ∧ decodeTableWord 24 0x1FFFF = some (.pokeCrb 0xFF 0xFF) ∧
      decodeTableWord 24 0x20000 = none := by
  decide

/-- The words of programs P1 to P5 (95_test_vectors.md L3) come back from the encoder. -/
theorem test_encode_words_of_the_programs :
    encode (.pokeTalo 0x04 0x03) = .bus 0x10403 ∧ encode (.pokeIcr 0x0D 0x81) = .bus 0x10D81 ∧
      encode (.pokeDdra 0x22 0xF0) = .bus 0x122F0 ∧ encode (.pokePra 0x30 0xA5) = .bus 0x130A5 ∧
      encode (.peekPra 0xF0 0x00) = .bus 0x0F000 ∧ encode (.peekPrb 0x11 0x00) = .bus 0x01100 := by
  decide

/-- Assembler lines (R70, R71) against the words of L1-4, L1-7 and L3. -/
theorem test_assemble :
    (AsmLine.setTA 0xFF05).assemble = [.bus 0x10405, .bus 0x105FF] ∧
      (AsmLine.setTB 0x0102).assemble = [.bus 0x10602, .bus 0x10701] ∧
      AsmLine.readTA.assemble = [.bus 0x00400, .bus 0x00500] ∧
      AsmLine.readTB.assemble = [.bus 0x00600, .bus 0x00700] ∧
      (AsmLine.iEnable 0x01).assemble = [.bus 0x10D81] ∧
      (AsmLine.iDisable 0x01).assemble = [.bus 0x10D01] ∧
      AsmLine.readTod.assemble = [.bus 0x00B00, .bus 0x00A00, .bus 0x00900, .bus 0x00800] ∧
      (AsmLine.selCol 1).assemble = [.bus 0x100FD] ∧
      (AsmLine.poke (.mnemonic .cra) (.hex 0x11)).assemble = [.bus 0x10E11] ∧
      (AsmLine.peek (.hex 0x1D)).assemble = [.bus 0x01D00] := by
  decide

/-! ## Well-formedness: an address of another register is refused, in every row -/

theorem test_wf_refuses_peeks_of_another_register :
    List.any [.peekPra 0x01 0x00, .peekPrb 0x12 0x00, .peekDdra 0x23 0x00, .peekDdrb 0x34 0x00,
    .peekTalo 0x45 0x00, .peekTahi 0x56 0x00, .peekTblo 0x67 0x00, .peekTbhi 0x78 0x00,
    .peekTod10 0x89 0x00, .peekTodsec 0x9A 0x00, .peekTodmin 0xAB 0x00, .peekTodhr 0xBC 0x00,
    .peekSdr 0xCD 0x00, .peekIcr 0xDE 0x00, .peekCra 0xEF 0x00, .peekCrb 0xF0 0x00]
      Instr.wf = false := by
  decide

theorem test_wf_refuses_pokes_of_another_register :
    List.any [.pokePra 0x01 0x00, .pokePrb 0x12 0x00, .pokeDdra 0x23 0x00, .pokeDdrb 0x34 0x00,
    .pokeTalo 0x45 0x00, .pokeTahi 0x56 0x00, .pokeTblo 0x67 0x00, .pokeTbhi 0x78 0x00,
    .pokeTod10 0x89 0x00, .pokeTodsec 0x9A 0x00, .pokeTodmin 0xAB 0x00, .pokeTodhr 0xBC 0x00,
    .pokeSdr 0xCD 0x00, .pokeIcr 0xDE 0x00, .pokeCra 0xEF 0x00, .pokeCrb 0xF0 0x00]
      Instr.wf = false := by
  decide

/-- Data bytes, ticks and key codes are never refused; nor is a mirror nibble. -/
theorem test_wf_accepts :
    (Instr.peekTodhr 0xFB 0xFF).wf = true ∧ (Instr.pokeIcr 0x0D 0xFF).wf = true ∧ (Instr.update 0).wf = true ∧
      (Instr.keyDown (.other 9)).wf = true ∧ (Instr.keyUp (.named .restore)).wf = true ∧ Instr.init.wf = true ∧
      Instr.destroy.wf = true := by
  decide

/-- `IENABLE m` and `IDISABLE m` need m <= 0x7F (R71). -/
theorem test_asm_wf_refuses_a_wide_mask :
    (AsmLine.iEnable 0x80).wf = false ∧ (AsmLine.iDisable 0xFF).wf = false ∧ (AsmLine.iEnable 0x7F).wf = true := by
  decide

/-! ## Reset (95_test_vectors.md "Conventions") -/

theorem test_reset_planes :
    State.reset.real =
        ⟨0x00, 0xFF, 0xFF, 0x00, 0x00, 0x00, 0x00, 0x00, 0x00, 0x00, 0x00, 0x00, 0x00, 0x00, 0x00, 0x00⟩ ∧
      State.reset.latched =
        ⟨0x00, 0x00, 0x00, 0x00, 0x00, 0x00, 0x00, 0x00, 0x00, 0x00, 0x00, 0x00, 0x00, 0x00, 0x00, 0x00⟩ := by
  decide

theorem test_reset_other_fields :
    State.reset.isr = 0x00 ∧ State.reset.kbd.toList = [0xFF, 0xFF, 0xFF, 0xFF, 0xFF, 0xFF, 0xFF, 0xFF] ∧
      State.reset.todLatched = false ∧ State.reset.lastTick = 0 := by
  decide

/-! ## Bus reads -/

/-- R73, R75 to R80, R85, R87, R88, R81 to R83 with the flag false, R84, R86: each register's own byte. -/
theorem test_peek_delivers_the_register :
    delivers (.peekPra 0x00 0x00) marked = some 0x0F ∧
      delivers (.peekDdra 0x02 0x00) marked = some 0xF0 ∧
      delivers (.peekDdrb 0x03 0x00) marked = some 0x33 ∧
      delivers (.peekTalo 0x04 0x00) marked = some 0x23 ∧
      delivers (.peekTahi 0x05 0x00) marked = some 0x01 ∧
      delivers (.peekTblo 0x06 0x00) marked = some 0x04 ∧
      delivers (.peekTbhi 0x07 0x00) marked = some 0x07 ∧
      delivers (.peekTod10 0x08 0x00) marked = some 0x05 ∧
      delivers (.peekTodsec 0x09 0x00) marked = some 0x20 ∧
      delivers (.peekTodmin 0x0A 0x00) marked = some 0x30 ∧
      delivers (.peekTodhr 0x0B 0x00) marked = some 0x11 ∧
      delivers (.peekSdr 0x0C 0x00) marked = some 0x6B ∧
      delivers (.peekIcr 0x0D 0x00) marked = some 0x81 ∧
      delivers (.peekCra 0x0E 0x00) marked = some 0x08 ∧
      delivers (.peekCrb 0x0F 0x00) marked = some 0x40 := by
  decide

/-- R120: DDRA 0xF0 and PRA 0x0F drive columns 4 to 7 low, so key Q shows and key A does not; PRB and DDRB are not read. -/
theorem test_peekPrb_scans : delivers (.peekPrb 0x01 0x00) marked = some 0xBF := by
  decide

/-- KB8: columns 0 and 7 together. -/
theorem test_peekPrb_ands_two_columns :
    delivers (.peekPrb 0x01 0x00)
      { State.reset with
        real := { State.reset.real with pra := 0x7E }
        kbd := (State.reset.kbd.set 0 0xFD).set 7 0x7F } = some 0x7D := by
  decide

/-- R81: frozen tenths, then live again. -/
theorem test_peekTod10_unfreezes :
    after (exec (.peekTod10 0x08 0x00) { marked with todLatched := true }) (fun s => (s.result, s.todLatched)) =
      some (some 0x06, false) := by
  decide

/-- R82, R83 with the flag true. -/
theorem test_peekTodsec_and_peekTodmin_frozen :
    delivers (.peekTodsec 0x09 0x00) { marked with todLatched := true } = some 0x21 ∧
      delivers (.peekTodmin 0x0A 0x00) { marked with todLatched := true } = some 0x31 := by
  decide

/-- RD12: a second hours read takes the snapshot again. -/
theorem test_peekTodhr_takes_the_snapshot_again :
    after (exec (.peekTodhr 0x0B 0x00) { marked with todLatched := true })
      (fun s => (s.result, s.todLatched, [s.latched.tod10, s.latched.todsec, s.latched.todmin, s.latched.todhr])) =
      some (some 0x11, true, [0x05, 0x20, 0x30, 0x11]) := by
  decide

/-- RD10: the status is not cleared by a read. -/
theorem test_peekIcr_keeps_the_status : after (exec (.peekIcr 0x0D 0x00) marked) (·.isr) = some 0x81 := by
  decide

/-! ## Bus writes -/

/-- WR1. -/
theorem test_pokePra_merges : after (exec (.pokePra 0x00 0xA5) marked) (·.real.pra) = some 0xAF := by
  decide

/-- R91 by hand: (C6 AND 33) OR (5A AND CC). -/
theorem test_pokePrb_merges : after (exec (.pokePrb 0x01 0xC6) marked) (·.real.prb) = some 0x4A := by
  decide

/-- R92, R93, R98 to R102: the byte goes to its own register of the live plane, and the latched plane stays. -/
theorem test_poke_stores_in_the_live_plane :
    after (exec (.pokeDdra 0x02 0x9C) marked) (fun s => (s.real, s.latched)) =
        some ({ liveBytes with ddra := 0x9C }, latchedBytes) ∧
      after (exec (.pokeDdrb 0x03 0x9C) marked) (fun s => (s.real, s.latched)) =
        some ({ liveBytes with ddrb := 0x9C }, latchedBytes) ∧
      after (exec (.pokeTod10 0x08 0x9C) marked) (fun s => (s.real, s.latched)) =
        some ({ liveBytes with tod10 := 0x9C }, latchedBytes) ∧
      after (exec (.pokeTodsec 0x09 0x9C) marked) (fun s => (s.real, s.latched)) =
        some ({ liveBytes with todsec := 0x9C }, latchedBytes) ∧
      after (exec (.pokeTodmin 0x0A 0x9C) marked) (fun s => (s.real, s.latched)) =
        some ({ liveBytes with todmin := 0x9C }, latchedBytes) ∧
      after (exec (.pokeTodhr 0x0B 0x9C) marked) (fun s => (s.real, s.latched)) =
        some ({ liveBytes with todhr := 0x9C }, latchedBytes) ∧
      after (exec (.pokeSdr 0x0C 0x9C) marked) (fun s => (s.real, s.latched)) =
        some ({ liveBytes with sdr := 0x9C }, latchedBytes) := by
  decide

/-- R94 to R97 (WR6, WR7): both planes, one byte of the pair. -/
theorem test_poke_of_a_timer_byte_stores_in_both_planes :
    after (exec (.pokeTalo 0x04 0x9C) marked) (fun s => (s.real, s.latched)) =
        some ({ liveBytes with talo := 0x9C }, { latchedBytes with talo := 0x9C }) ∧
      after (exec (.pokeTahi 0x05 0x9C) marked) (fun s => (s.real, s.latched)) =
        some ({ liveBytes with tahi := 0x9C }, { latchedBytes with tahi := 0x9C }) ∧
      after (exec (.pokeTblo 0x06 0x9C) marked) (fun s => (s.real, s.latched)) =
        some ({ liveBytes with tblo := 0x9C }, { latchedBytes with tblo := 0x9C }) ∧
      after (exec (.pokeTbhi 0x07 0x9C) marked) (fun s => (s.real, s.latched)) =
        some ({ liveBytes with tbhi := 0x9C }, { latchedBytes with tbhi := 0x9C }) := by
  decide

/-- WR12. -/
theorem test_pokeIcr_sets_selected_bits : after (exec (.pokeIcr 0x0D 0x8A) marked) (·.real.icr) = some 0x5F := by
  decide

/-- WR13. -/
theorem test_pokeIcr_clears_selected_bits :
    after (exec (.pokeIcr 0x0D 0x0F) { marked with real := { liveBytes with icr := 0x5F } }) (·.real.icr) =
      some 0x50 := by
  decide

/-- WR16: LOAD copies the latch of Timer A. -/
theorem test_pokeCra_reloads :
    after (exec (.pokeCra 0x0E 0x11) marked) (·.real) =
      some { liveBytes with cra := 0x11, talo := 0x00, tahi := 0x10 } := by
  decide

/-- WR15: without LOAD nothing is reloaded. -/
theorem test_pokeCra_without_load :
    after (exec (.pokeCra 0x0E 0x01) marked) (·.real) = some { liveBytes with cra := 0x01 } := by
  decide

/-- WR17, with these planes: LOAD of CRB copies the latch of Timer B. -/
theorem test_pokeCrb_reloads :
    after (exec (.pokeCrb 0x0F 0x10) marked) (·.real) =
      some { liveBytes with crb := 0x10, tblo := 0x09, tbhi := 0x02 } := by
  decide

/-! ## Host operations -/

/-- TM15: Timer A underflows, and its event underflows the cascaded Timer B, whose interrupt alone is enabled. -/
theorem test_update_cascades :
    after (exec (.update 1) (timers 0x01 0x41 0x02 0 3 0 2))
      (fun s => (counterA s, counterB s, s.isr, s.outputs, s.lastTick)) = some (3, 2, 0x83, [.irq], 1) := by
  decide

/-- L1-5: a one-shot timer stops at its underflow, masked. -/
theorem test_update_stops_a_one_shot_timer :
    after (exec (.update 3) (timers 0x09 0x00 0x00 2 2 0 0)) (fun s => (counterA s, s.real.cra, s.isr, s.outputs)) =
      some (2, 0x08, 0x01, []) := by
  decide

/-- R121: entries of the default table, among them the four corners. -/
theorem test_default_key_table :
    keyPosition defaultParams (.named .instDel) = some ⟨0, 0x01⟩ ∧
      keyPosition defaultParams (.named .crsrUd) = some ⟨0, 0x80⟩ ∧
      keyPosition defaultParams (.named .a) = some ⟨1, 0x04⟩ ∧
      keyPosition defaultParams (.named .digit1) = some ⟨7, 0x01⟩ ∧
      keyPosition defaultParams (.named .runStop) = some ⟨7, 0x80⟩ ∧
      keyPosition defaultParams (.named .restore) = none ∧ keyPosition defaultParams (.other 0) = none := by
  decide

/-- KB2. -/
theorem test_keyDown_clears_the_row_bit :
    after (exec (.keyDown (.named .s)) { State.reset with kbd := State.reset.kbd.set 1 0xFB }) (·.kbd[1]) =
      some 0xDB := by
  decide

/-- KB4. -/
theorem test_keyDown_restore_emits_nmi :
    after (exec (.keyDown (.named .restore)) marked) (fun s => (s.outputs, s.kbd, s.isr)) =
      some ([.nmi], marked.kbd, 0x81) := by
  decide

/-- KB3. -/
theorem test_keyUp_sets_the_row_bit :
    after (exec (.keyUp (.named .a)) { State.reset with kbd := State.reset.kbd.set 1 0xDB }) (·.kbd[1]) =
      some 0xDF := by
  decide

/-- KB6. -/
theorem test_keyUp_restore_does_nothing :
    after (exec (.keyUp (.named .restore)) marked) (fun s => (s.outputs, s.kbd)) = some ([], marked.kbd) := by
  decide

/-- RS1, RS4: the start state, from any state and after `destroy`. -/
theorem test_init_resets :
    after (exec .init { marked with life := .ended, todLatched := true }) id = some State.reset := by
  decide

/-- RS3. -/
theorem test_destroy_ends_the_instance :
    after (exec .destroy marked) (·.life) = some .ended ∧
      refusal (exec (.peekPra 0x00 0x00) { marked with life := .ended }) = some .instanceEnded := by
  decide

/-! ## The step -/

/-- A word placed where the step takes it runs as the first instruction after reset, and is then gone. -/
theorem test_step_runs_a_placed_word :
    after (step (State.reset.withFetchWord 24 0x10E01)) (fun s => (s.real.cra, s.pending)) = some (0x01, []) := by
  decide

/-- R50. -/
theorem test_step_refuses_an_overlapping_call :
    refusal (step (calling [⟨true, .update 5⟩])) = some .overlappingCall := by
  decide

/-! ## Witnesses: states and operands that meet the hypotheses of the statements, all together -/

/-- The states the witnesses use beside `marked`, `timers` and `calling`. -/
def beforeInit : State :=
  { State.reset with life := .uninitialised }

/-- An instance after `destroy`. -/
def ended : State :=
  { State.reset with life := .ended }

/-- DecodeOfEncodeIsTheInstruction: lowest and highest mirror nibble. -/
theorem witness_wf :
    (Instr.peekPra 0x00 0x00).wf = true ∧ (Instr.pokeCrb 0xFF 0xFF).wf = true ∧ (Instr.update 0).wf = true := by
  decide

/-- MirrorAndDontCareBitsSelectNothing: two peeks, two pokes, each pair of different words. -/
theorem witness_mirror_words :
    (isPokeWord 0x00D00 = isPokeWord 0x0FDFF ∧
        (0x00D00 : TransactionWord).extractLsb' 8 4 = (0x0FDFF : TransactionWord).extractLsb' 8 4 ∧
        isPokeWord 0x00D00 = false) ∧
      (isPokeWord 0x122F0 = isPokeWord 0x1F2F0 ∧
        (0x122F0 : TransactionWord).extractLsb' 8 4 = (0x1F2F0 : TransactionWord).extractLsb' 8 4 ∧
        isPokeWord 0x122F0 = true ∧ dataOf 0x122F0 = dataOf 0x1F2F0) := by
  decide

/-- StepRunsTheDecodedCall. -/
theorem witness_pending_call : (calling [⟨false, .bus 0x10E11⟩, ⟨false, .init⟩]).pending =
    ⟨false, .bus 0x10E11⟩ :: [⟨false, .init⟩] := by
  decide

/-- StepHoldsTheStateOrRefusesAnOverlap, each clause. -/
theorem witness_idle_and_overlapping :
    State.reset.pending = [] ∧ (calling [⟨true, .bus 0x00D00⟩]).pending = ⟨true, .bus 0x00D00⟩ :: [] := by
  decide

/-- Every statement whose only hypothesis on the state is that the instance is live. -/
theorem witness_live : State.reset.life = .live ∧ marked.life = .live := by
  decide

/-- The address hypothesis of every row's words, at the lowest and the highest mirror nibble. -/
theorem witness_row_addresses :
    ∀ r : Fin 16, (BitVec.ofNat 8 r : Byte).toNat % 16 = r ∧ (BitVec.ofNat 8 (0xF0 + r) : Byte).toNat % 16 = r := by
  decide

/-- PeeksLeaveTheLivePlaneAlone, RepeatedPeekDeliversTheSameByte, EnableMaskIsNotReadBack: a peek of each clause runs. -/
theorem witness_peeks_run :
    (isPeek (.peekPra 0x00 0x00) = true ∧ ∃ t, exec (.peekPra 0x00 0x00) marked = .next t) ∧
      (isPeek (.peekTod10 0x08 0x00) = true ∧ ∃ t, exec (.peekTod10 0x08 0x00) marked = .next t) ∧
      (isPeek (.peekTodhr 0x0B 0x00) = true ∧ ∃ t, exec (.peekTodhr 0x0B 0x00) marked = .next t) :=
  ⟨⟨rfl, _, rfl⟩, ⟨rfl, _, rfl⟩, ⟨rfl, _, rfl⟩⟩

/-- PokesLeaveStatusAndKeyboardAlone and RepeatedPokeChangesNothingMore. -/
theorem witness_pokes_run :
    (isPoke (.pokeCra 0x0E 0x11) = true ∧ ∃ t, exec (.pokeCra 0x0E 0x11) marked = .next t) ∧
      (isPoke (.pokeIcr 0x0D 0x8A) = true ∧ ∃ t, exec (.pokeIcr 0x0D 0x8A) marked = .next t) :=
  ⟨⟨rfl, _, rfl⟩, ⟨rfl, _, rfl⟩⟩

/-- UpdateHasItsWholeEffect and WholePeriodsOfTicksGoUncounted: the lowest accepted tick and a later one. -/
theorem witness_accepted_ticks : marked.life = .live ∧ marked.lastTick ≤ 100 ∧ marked.lastTick ≤ 65636 := by
  decide

/-- UnderflowDoesStepsAToE, Timer A: one tick past the counter, one-shot and enabled; then the largest delta. -/
theorem witness_underflow_a :
    let s := timers 0x09 0x00 0x01 5 5 0 0
    (s.life = .live ∧ s.lastTick ≤ 6 ∧ s.real.crb[0] = false ∧ s.real.cra[0] = true ∧ s.real.cra[5] = false ∧
      counterA s < (6 - s.lastTick) % 65536) ∧ counterA s < (65535 - s.lastTick) % 65536 := by
  decide

/-- UnderflowDoesStepsAToE, Timer B. -/
theorem witness_underflow_b :
    let s := timers 0x00 0x01 0x02 0 0 0 7
    s.life = .live ∧ s.lastTick ≤ 1 ∧ s.real.cra[0] = false ∧ s.real.crb[0] = true ∧ s.real.crb[6] = false ∧
      s.real.crb[5] = false ∧ counterB s < (1 - s.lastTick) % 65536 := by
  decide

/-- TickBelowBaselineIsRefused (TM23): one tick below. -/
theorem witness_tick_below : marked.life = .live ∧ 99 < marked.lastTick := by
  decide

/-- StoppedOrUnimplementedSourcesCountNothing: each alternative (TM11, TM18, TM19, TM20, TM24). -/
theorem witness_counting_nothing :
    (State.reset.real.cra[0] = false ∧ State.reset.real.crb[0] = false) ∧
      ((timers 0x21 0x41 0 0 0 5 5).real.cra[5] = true ∧ (timers 0x21 0x41 0 0 0 5 5).real.crb[6] = true) ∧
      ((timers 0x21 0x21 0 0 0 5 5).real.cra[5] = true ∧ (timers 0x21 0x21 0 0 0 5 5).real.crb[5] = true) := by
  decide

/-- CascadeCountsOncePerTimerAUnderflow: with an underflow of Timer A and without (TM15, TM16), Timer B at 0 and above. -/
theorem witness_cascade :
    let s := timers 0x01 0x41 0x02 0 3 0 2
    let r := timers 0x01 0x41 0x02 9 9 5 5
    (s.life = .live ∧ s.lastTick ≤ 1 ∧ s.real.crb[0] = true ∧ s.real.crb[6] = true ∧ s.real.crb[5] = false ∧
      underflowsA s (1 - s.lastTick) = true ∧ counterB s = 0) ∧
    (r.life = .live ∧ r.lastTick ≤ 1 ∧ r.real.crb[0] = true ∧ r.real.crb[6] = true ∧ r.real.crb[5] = false ∧
      underflowsA r (1 - r.lastTick) = false ∧ underflowsA r (10 - r.lastTick) = true ∧ counterB r = 5) := by
  decide

/-- ContinuousTimerUnderflowsEveryLatchPlusOneTicks: a latch of 3, and of 0. -/
theorem witness_continuous :
    let s := timers 0x01 0x00 0x01 3 3 0 0
    let z := timers 0x01 0x00 0x01 0 0 0 0
    (s.life = .live ∧ s.real.cra[0] = true ∧ s.real.cra[5] = false ∧ s.real.cra[3] = false ∧ 3 ≤ counterA s ∧
      counterA s = latchA s) ∧
    (z.life = .live ∧ z.real.cra[0] = true ∧ z.real.cra[5] = false ∧ z.real.cra[3] = false ∧ 0 ≤ counterA z ∧
      counterA z = latchA z) := by
  decide

/-- StoppedTimerHoldsItsCounter: both timers stopped, a control byte without LOAD, and an `update`. -/
theorem witness_stopped :
    (∃ t, exec (.pokeCra 0x0E 0x01) marked = .next t) ∧ (∃ t, exec (.update 200) marked = .next t) ∧
      marked.real.cra[0] = false ∧ marked.real.crb[0] = false ∧ (0x01 : Byte)[4] = false :=
  ⟨⟨_, rfl⟩, ⟨_, rfl⟩, by decide, by decide, by decide⟩

/-- KeysOfTheTableMoveTheirRowBits: the first column and the last. -/
theorem witness_table_keys :
    (State.reset.life = .live ∧ KeyCode.named .instDel ≠ State.reset.params.restore ∧
      keyPosition State.reset.params (.named .instDel) = some ⟨0, 0x01⟩) ∧
    (KeyCode.named .runStop ≠ State.reset.params.restore ∧
      keyPosition State.reset.params (.named .runStop) = some ⟨7, 0x80⟩) := by
  decide

/-- RestoreAndUnknownKeysLeaveTheMatrixAlone. -/
theorem witness_unknown_key :
    State.reset.life = .live ∧ KeyCode.other 0 ≠ State.reset.params.restore ∧
      keyPosition State.reset.params (.other 0) = none := by
  decide

/-- PressedKeyShowsInItsColumn (L1-7). -/
theorem witness_pressed_key :
    let s := { State.reset with real := { State.reset.real with pra := 0xFD } }
    s.life = .live ∧ KeyCode.named .a ≠ s.params.restore ∧ keyPosition s.params (.named .a) = some ⟨1, 0x04⟩ ∧
      s.real.ddra = 0xFF ∧ s.real.pra = ~~~(1#8 <<< (1 : Fin 8).val) ∧ s.kbd[(1 : Fin 8)] = 0xFF := by
  decide

/-- OnlyUpdateEmitsIrqAndOnlyRestoreEmitsNmi, StatusBitsAreClearedByInitOnly, ParametersAndPendingCallsAreConstant: operations
of each clause run. -/
theorem witness_operations_run :
    (∃ t, exec (.update 1) (timers 0x01 0x01 0x03 0 3 0 7) = .next t ∧ t.outputs = [.irq, .irq]) ∧
      (∃ t, exec (.keyDown State.reset.params.restore) marked = .next t ∧ t.outputs = [.nmi]) ∧
      (∃ t, exec .init marked = .next t) ∧ ∃ t, exec (.pokeIcr 0x0D 0x81) marked = .next t :=
  ⟨⟨_, rfl, by decide⟩, ⟨_, rfl, by decide⟩, ⟨_, rfl⟩, ⟨_, rfl⟩⟩

/-- StepKeepsTheStatusAndLatchInvariant: a step that changes the status, and one before `init`. -/
theorem witness_invariant_steps :
    (∃ t, step { timers 0x01 0x00 0x01 0 3 0 0 with pending := [⟨false, .update 1⟩] } = .next t ∧ t.isr = 0x81) ∧
      Inv { timers 0x01 0x00 0x01 0 3 0 0 with pending := [⟨false, .update 1⟩] } ∧
      (∃ t, step { beforeInit with pending := [⟨false, .init⟩] } = .next t) ∧
      Inv { beforeInit with pending := [⟨false, .init⟩] } :=
  ⟨⟨_, rfl, by decide⟩, by decide, ⟨_, rfl⟩, by decide⟩

/-- DutifulCallsAlwaysRun: duties kept at the lowest tick and by `init`, and broken by a tick below and before `init`. -/
theorem witness_duties :
    dutyMet (.update 100) marked ∧ dutyMet .init ended ∧ ¬ dutyMet (.update 99) marked ∧
      ¬ dutyMet .destroy beforeInit := by
  refine ⟨.inr ⟨rfl, fun t h => by cases h; decide⟩, .inl rfl, ?_, ?_⟩
  · rintro (h | ⟨_, h⟩)
    · cases h
    · exact absurd (h 99 rfl) (by decide)
  · rintro (h | ⟨h, _⟩) <;> cases h

/-- OnlyInitRunsOutsideALife, each clause. -/
theorem witness_outside_a_life :
    beforeInit.life = .uninitialised ∧ ended.life = .ended ∧ Instr.destroy ≠ .init := by
  decide

/-- PortBDataIsUnobservable: two different states with a next step, and two with a refusal. -/
theorem witness_two_port_b_values :
    let s := { marked with pending := [⟨false, .bus 0x00100⟩] }
    let t := { s with real := { s.real with prb := 0x00 } }
    s ≠ t ∧ withoutPrb s = withoutPrb t ∧ (∃ u, step s = .next u) ∧
      step { s with life := .ended } = .refused .instanceEnded :=
  ⟨by decide, rfl, ⟨_, rfl⟩, rfl⟩

/-- TodSnapshotStandsUntilTenthsAreRead (L1-8 steps 2 and 3). -/
theorem witness_frozen_tod :
    let s := { marked with todLatched := true }
    (∀ i ∈ [Instr.pokeTodmin 0x0A 0x31, .peekTodmin 0x0A 0x00],
      i ≠ .init ∧ (∀ a x, i ≠ .peekTod10 a x) ∧ (∀ a x, i ≠ .peekTodhr a x)) ∧
    s.todLatched = true ∧ ∃ t, execAll [.pokeTodmin 0x0A 0x31, .peekTodmin 0x0A 0x00] s = .next t ∧ t.life = .live :=
  ⟨by simp, rfl, _, rfl, rfl⟩

/-- KeysWorkForAnyCodeTypeTableAndRestoreCode: three codes of a type of their own, the restore code, one of the table and one
unknown, and for every key table a live state that holds it. -/
theorem witness_own_key_codes :
    Function.Injective (fun k : Fin 3 => KeyCode.other k.val) ∧
      (∀ t : KeyTable, ∃ s : State, s.life = .live ∧ s.params.keyTable = t ∧ s.params.restore = .other (0 : Fin 3).val) ∧
      (0 ∈ [(0 : Fin 3), 1, 2] ∧ 1 ∈ [(0 : Fin 3), 1, 2] ∧ 2 ∈ [(0 : Fin 3), 1, 2]) ∧
      (fun k : Fin 3 => if k = 1 then some (⟨7, 0x80⟩ : KeyPosition) else none) 1 = some ⟨7, 0x80⟩ ∧
      (fun k : Fin 3 => if k = 1 then some (⟨7, 0x80⟩ : KeyPosition) else none) 2 = none :=
  ⟨by decide,
    fun t => ⟨{ State.reset with params := { defaultParams with keyTable := t, restore := .other 0 } }, rfl, rfl, rfl⟩,
    by decide, by decide, by decide⟩

/-- WritingPseudoInstructionsDoWhatTheyName: the largest mask, and Port A all outputs. -/
theorem witness_pseudo_instructions :
    State.reset.life = .live ∧ (0x7F : Byte).toNat ≤ 0x7F ∧ (0x00 : Byte).toNat ≤ 0x7F ∧
      State.reset.real.ddra = 0xFF := by
  decide

end Sys2Proof.Tests
end

