-- ==== Sys2Proof/Proofs/StatusBits.lean ====
section
/-! PROOF. `isr` through every operation (R28): what each effect does to it, and that the bits an `update` sets come on top of
those that stand. -/

namespace Sys2Proof.Machine

/-- The body of an `update` is the timers' share at the delta, then the baseline (R107, R108). -/
theorem updateBody_eq (t : Nat) (s : State) :
    updateBody t s =
      { s with
        real := realAfterUpdate s (t - s.lastTick)
        isr := isrAfterUpdate s (t - s.lastTick)
        lastTick := t
        outputs := s.outputs ++ irqsOfUpdate s (t - s.lastTick) } := by
  rw [updateBody, timersStep_eq]
  rfl

/-- Only `update` and `init` write `isr`. -/
theorem effect_isr {i : Instr} (hi : i ≠ .init) (hu : ∀ n, i ≠ .update n) (s : State) : (effect i s).isr = s.isr := by
  cases i with
  | init => exact absurd rfl hi
  | update n => exact absurd rfl (hu n)
  | pokeCra a d => exact (congrArg State.isr (pokeControl_a d s) :)
  | pokeCrb a d => exact (congrArg State.isr (pokeControl_b d s) :)
  | keyDown k => exact (congrArg State.isr (keyDownBody_frame k s) :)
  | keyUp k => exact (congrArg State.isr (keyUpBody_frame k s) :)
  | _ => rfl

/-- An `update` only adds bits to `isr`: those that were set stay (R110). -/
theorem and_isrAfterUpdate (s : State) (n : Nat) : s.isr &&& isrAfterUpdate s n = s.isr := by
  simp only [isrAfterUpdate, BitVec.or_assoc]
  apply BitVec.eq_of_getLsbD_eq
  intro b _
  rw [BitVec.getLsbD_and, BitVec.getLsbD_or]
  exact inf_sup_self

/-- No effect but that of `init` clears a bit of `isr` (R28). -/
theorem and_effect_isr {i : Instr} (hi : i ≠ .init) (s : State) : s.isr &&& (effect i s).isr = s.isr := by
  by_cases hu : ∃ n, i = .update n
  · obtain ⟨n, rfl⟩ := hu
    rw [effect, updateBody_eq]
    exact and_isrAfterUpdate s (n - s.lastTick)
  · rw [effect_isr hi (not_exists.mp hu), BitVec.and_self]

/-- Settles O35: a next state is the effect on what the operation's start leaves, and the start does not touch `isr`. -/
theorem statusBitsAreClearedByInitOnly : Obligations.StatusBitsAreClearedByInitOnly := by
  intro i s t h
  obtain ⟨-, rfl⟩ := exec_next h
  refine ⟨fun hi => ?_, fun hi hu => ?_, fun hi => ?_⟩
  · exact and_effect_isr hi (startOperation s)
  · exact effect_isr hi hu (startOperation s)
  · subst hi
    rfl

end Sys2Proof.Machine
end

