-- ==== Sys2Proof/Proofs/OpcodeTable.lean ====
section
/-! PROOF. The decoder is the matcher of the opcode table (R65): the match value of the row of W and a register is the row's
word with every other field 0, and that is what the mask leaves of a word. -/

namespace Sys2Proof

theorem tableMatch_peekOf (r : Reg) (a x : Byte) : tableMatch (peekOf r a x) = some (rowWord false r.index 0 0) := by
  cases r <;> rfl

theorem tableMatch_pokeOf (r : Reg) (a d : Byte) : tableMatch (pokeOf r a d) = some (rowWord true r.index 0 0) := by
  cases r <;> rfl

/-- A word decodes to the row whose match value is the word under the mask (R65). -/
theorem tableMatch_decodeWord (w : TransactionWord) : tableMatch (decodeWord w) = some (w &&& tableMask) := by
  rw [mask_eq_rowWord, decodeWord]
  cases isPokeWord w with
  | true => exact tableMatch_pokeOf _ _ _
  | false => exact tableMatch_peekOf _ _ _

/-- Settles O4: a word goes to its row by its W bit and register index, and a host call is its own row by definition. -/
theorem decodeMatchesTheOpcodeTable : Obligations.DecodeMatchesTheOpcodeTable :=
  ⟨tableMatch_decodeWord, fun _ => rfl, fun _ => rfl, fun _ => rfl, rfl, rfl⟩

end Sys2Proof
end

