-- ==== Sys2Proof/Proofs/BusReads.lean ====
section
/-! PROOF. The bus reads (R72 to R88): a peek on a live instance runs its row's effect on what the operation's start leaves.
Where that effect is to deliver a byte, the byte is all there is to say. -/

namespace Sys2Proof.Machine

/-- On a live instance every peek runs, to the effect of its row. -/
theorem exec_peekOf {s : State} (hl : s.life = .live) (r : Reg) (a x : Byte) :
    exec (peekOf r a x) s = .next (effect (peekOf r a x) (startOperation s)) :=
  exec_of_dutyMet (dutyMet_of_live hl fun t h => by cases r <;> cases h)

/-- Delivering a byte right after the start of an operation changes the outputs and the result alone. -/
theorem deliver_startOperation (v : Byte) (s : State) : deliver v (startOperation s) = afterPeek s v := rfl

/-- The words of a peek row whose effect is to deliver a byte are that peek, and it answers that byte and changes nothing. -/
theorem peekWordIs_and_exec_peekOf {s : State} (hl : s.life = .live) (r : Reg) (a x : Byte) {v : Byte}
    (h : effect (peekOf r a x) (startOperation s) = deliver v (startOperation s)) :
    PeekWordIs r.index.toNat a x (peekOf r a x) ∧ exec (peekOf r a x) s = .next (afterPeek s v) :=
  ⟨peekWordIs r a x, by rw [exec_peekOf hl, h, deliver_startOperation]⟩

/-- Settles O8: the effect of each of the ten peeks is `peekReal` of its register, which delivers the live byte (R72). -/
theorem peekOfPlainRegistersReturnsTheLiveByte : Obligations.PeekOfPlainRegistersReturnsTheLiveByte := by
  intro s a x hl
  have verbatim (r : Reg)
      (h : effect (peekOf r a x) (startOperation s) = peekReal r (startOperation s)) :=
    peekWordIs_and_exec_peekOf hl r a x (v := bankGet s.real r) h
  exact ⟨verbatim .pra rfl, verbatim .ddra rfl, verbatim .ddrb rfl, verbatim .talo rfl, verbatim .tahi rfl,
    verbatim .tblo rfl, verbatim .tbhi rfl, verbatim .sdr rfl, verbatim .cra rfl, verbatim .crb rfl⟩

/-- A column is selected exactly when its Port A bit is an output that holds 0 (R64, R120). -/
theorem columnSelected_iff (s : State) (c : Fin 8) :
    columnSelected s c = true ↔ s.real.ddra.getLsbD c = true ∧ s.real.pra.getLsbD c = false := by
  simp only [columnSelected, getReal, bankGet_ddra, bankGet_pra, Bool.and_eq_true, Bool.not_eq_true']

/-- A scan bit is 0 exactly when some selected column has that row pressed (R74). -/
theorem scan_bit_eq_false_iff (s : State) (r : Fin 8) :
    (scan s).getLsbD r = false ↔
      ∃ c : Fin 8, s.real.ddra.getLsbD c = true ∧ s.real.pra.getLsbD c = false ∧ (s.kbd[c]).getLsbD r = false := by
  rw [scan_bit s r.isLt, decide_eq_false_iff_not]
  simp only [not_forall, exists_prop, Bool.not_eq_true, columnSelected_iff, and_assoc]

/-- Settles O9: the byte is the scan, which reads nothing that the operation's start writes. -/
theorem peekOfPortBReturnsTheColumnScan : Obligations.PeekOfPortBReturnsTheColumnScan := by
  intro s a x hl
  obtain ⟨word, run⟩ := peekWordIs_and_exec_peekOf hl .prb a x (v := scan s) rfl
  exact ⟨word, scan s, run, scan_bit_eq_false_iff s⟩

/-- Settles O10: the effect is to deliver `isr`, and nothing is written beside the result. -/
theorem peekOfIcrReturnsTheStatusUncleared : Obligations.PeekOfIcrReturnsTheStatusUncleared := by
  intro s a x hl
  exact peekWordIs_and_exec_peekOf hl .icr a x rfl

/-- Settles O11: the effect of each is to deliver `todValue`, the byte of the plane that the flag names. -/
theorem peekOfSecondsAndMinutesFollowsTheFlag : Obligations.PeekOfSecondsAndMinutesFollowsTheFlag := by
  intro s a x hl
  exact ⟨peekWordIs_and_exec_peekOf hl .todsec a x rfl, peekWordIs_and_exec_peekOf hl .todmin a x rfl⟩

/-- The tenths read takes its byte by the flag as it stands, and only then clears the flag (R81). -/
theorem peekTenths_startOperation (s : State) :
    peekTenths (startOperation s) =
      { afterPeek s (if s.todLatched then s.latched.tod10 else s.real.tod10) with todLatched := false } := rfl

/-- Settles O12: the effect of the row is the tenths read. -/
theorem peekOfTenthsDeliversThenUnfreezes : Obligations.PeekOfTenthsDeliversThenUnfreezes := by
  intro s a x hl
  refine ⟨peekWordIs .tod10 a x, ?_⟩
  rw [← peekTenths_startOperation]
  exact exec_peekOf hl .tod10 a x

end Sys2Proof.Machine
end

