-- ==== Sys2Proof/Proofs/BusWrites.lean ====
section
/-! PROOF. The bus writes (R89 to R105): a poke on a live instance runs its row's effect on what the operation's start leaves.
Each kind of poke says once which bytes of which plane that effect writes. -/

namespace Sys2Proof.Machine

/-- On a live instance every poke runs, to the effect of its row. -/
theorem exec_pokeOf {s : State} (hl : s.life = .live) (r : Reg) (a d : Byte) :
    exec (pokeOf r a d) s = .next (effect (pokeOf r a d) (startOperation s)) :=
  exec_of_dutyMet (dutyMet_of_live hl fun t h => by cases r <;> cases h)

/-- The words of a poke row are that poke, and it answers the state that its effect leaves. -/
theorem pokeWordIs_and_exec_pokeOf {s t : State} (hl : s.life = .live) (r : Reg) (a d : Byte)
    (h : effect (pokeOf r a d) (startOperation s) = t) :
    PokeWordIs r.index.toNat a d (pokeOf r a d) ∧ exec (pokeOf r a d) s = .next t :=
  ⟨pokeWordIs r a d, by rw [exec_pokeOf hl, h]⟩

/-- A live-plane write right after the start of an operation changes that plane, the outputs and the result alone. -/
theorem setReal_startOperation (r : Reg) (v : Byte) (s : State) :
    setReal r v (startOperation s) = afterRealWrite s (bankSet s.real r v) := rfl

/-- A timer byte goes to the same cell of both planes (R94 to R97). -/
theorem pokeTimerByte_startOperation (r : Reg) (d : Byte) (s : State) :
    pokeTimerByte r d (startOperation s) =
      { afterRealWrite s (bankSet s.real r d) with latched := bankSet s.latched r d } := rfl

/-- A port write puts the merge of the old byte and the new one in the port's cell (R90, R91): the direction register and
the old byte are read as they stood before the operation. -/
theorem pokePort_startOperation (port direction : Reg) (d : Byte) (s : State) :
    pokePort port direction d (startOperation s) =
      afterRealWrite s
        (bankSet s.real port (directionMerge (bankGet s.real direction) (bankGet s.real port) d)) := rfl

/-- A CRA write: the live plane with the byte, and with the latch in counter A if the byte's LOAD bit is 1 (R104). -/
theorem pokeControl_a_startOperation (d : Byte) (s : State) :
    pokeControl .a d (startOperation s) =
      afterRealWrite s
        (if d[4] then { s.real with cra := d, talo := s.latched.talo, tahi := s.latched.tahi }
         else { s.real with cra := d }) := by
  rw [pokeControl_a]
  split <;> rfl

/-- A CRB write: the live plane with the byte, and with the latch in counter B if the byte's LOAD bit is 1 (R105). -/
theorem pokeControl_b_startOperation (d : Byte) (s : State) :
    pokeControl .b d (startOperation s) =
      afterRealWrite s
        (if d[4] then { s.real with crb := d, tblo := s.latched.tblo, tbhi := s.latched.tbhi }
         else { s.real with crb := d }) := by
  rw [pokeControl_b]
  split <;> rfl

/-- Settles O16: the byte written is the direction-masked merge, whose bits `directionMerge_bit` gives. -/
theorem pokeOfPortsWritesOutputBitsOnly : Obligations.PokeOfPortsWritesOutputBitsOnly := by
  intro s a d hl
  obtain ⟨wordA, runA⟩ := pokeWordIs_and_exec_pokeOf hl .pra a d (pokePort_startOperation .pra .ddra d s)
  obtain ⟨wordB, runB⟩ := pokeWordIs_and_exec_pokeOf hl .prb a d (pokePort_startOperation .prb .ddrb d s)
  exact ⟨⟨wordA, _, runA, fun b => directionMerge_bit _ _ _ b.isLt⟩,
    ⟨wordB, _, runB, fun b => directionMerge_bit _ _ _ b.isLt⟩⟩

/-- Settles O19: the byte written is the mask blend, whose bits 0 to 6 and bit 7 `maskBlend_bit` and `maskBlend_bit7`
give. -/
theorem pokeOfIcrBlendsTheMask : Obligations.PokeOfIcrBlendsTheMask := by
  intro s a d hl
  obtain ⟨word, run⟩ := pokeWordIs_and_exec_pokeOf hl .icr a d
    (setReal_startOperation .icr (maskBlend s.real.icr d) s)
  exact ⟨word, _, run, fun b => maskBlend_bit _ _ b.isLt, maskBlend_bit7 _ _⟩

/-- Settles O17: the effect of each of the seven pokes is `pokeReal` of its register, a write of the byte in the live
plane (R89). -/
theorem pokeOfPlainRegistersStoresTheByte : Obligations.PokeOfPlainRegistersStoresTheByte := by
  intro s a d hl
  have verbatim (r : Reg)
      (h : effect (pokeOf r a d) (startOperation s) = pokeReal r d (startOperation s)) :=
    pokeWordIs_and_exec_pokeOf hl r a d (h.trans (setReal_startOperation r d s))
  exact ⟨verbatim .ddra rfl, verbatim .ddrb rfl, verbatim .tod10 rfl, verbatim .todsec rfl, verbatim .todmin rfl,
    verbatim .todhr rfl, verbatim .sdr rfl⟩

/-- Settles O18: the effect of each of the four pokes is `pokeTimerByte` of its register, which reads no control register. -/
theorem pokeOfTimerBytesWritesBothPlanes : Obligations.PokeOfTimerBytesWritesBothPlanes := by
  intro s a d hl
  have bothPlanes (r : Reg)
      (h : effect (pokeOf r a d) (startOperation s) = pokeTimerByte r d (startOperation s)) :=
    pokeWordIs_and_exec_pokeOf hl r a d (h.trans (pokeTimerByte_startOperation r d s))
  exact ⟨bothPlanes .talo rfl, bothPlanes .tahi rfl, bothPlanes .tblo rfl, bothPlanes .tbhi rfl⟩

/-- Settles O20: the effect of each poke is `pokeControl` of its timer, which branches on the LOAD bit alone. -/
theorem pokeOfControlRegistersStoresAndReloads : Obligations.PokeOfControlRegistersStoresAndReloads := by
  intro s a d hl
  exact ⟨pokeWordIs_and_exec_pokeOf hl .cra a d (pokeControl_a_startOperation d s),
    pokeWordIs_and_exec_pokeOf hl .crb a d (pokeControl_b_startOperation d s)⟩

end Sys2Proof.Machine
end

