-- ==== Sys2Proof/Proofs/TimerUpdates.lean ====
section
/-! PROOF. UPDATE (R107 to R112): an accepted one is Timer A's count, then Timer B's, then the baseline. Its effect in natural
numbers follows, and what is left of it when one timer stands still and the other underflows. -/

namespace Sys2Proof.Machine

/-- An accepted `update` on a live instance runs the body on what the operation's start leaves. -/
theorem exec_update {s : State} {t : Nat} (hl : s.life = .live) (ht : s.lastTick ≤ t) :
    exec (.update t) s = .next (updateBody t (startOperation s)) :=
  exec_of_dutyMet (dutyMet_update hl ht)

/-- Settles O23: the body's effect is `updateBody_eq`, and the events start from none. -/
theorem updateHasItsWholeEffect : Obligations.UpdateHasItsWholeEffect := by
  intro s t hl ht
  rw [exec_update hl ht, updateBody_eq]
  rfl

/-! ## By how much each timer counts -/

theorem amountA_of_stopped {s : State} (h0 : s.real.cra[0] = false) (n : Nat) : amountA s n = 0 := by
  simp [amountA, h0]

theorem amountB_of_stopped {s : State} (h0 : s.real.crb[0] = false) (n : Nat) : amountB s n = 0 := by
  simp [amountB, h0]

/-- A running Timer A on the tick source counts the delta (R111). -/
theorem amountA_of_ticks {s : State} (h0 : s.real.cra[0] = true) (h5 : s.real.cra[5] = false) (n : Nat) :
    amountA s n = n := by
  simp [amountA, h0, h5]

/-- A running Timer B on the tick source counts the delta, whatever Timer A does (R112). -/
theorem amountB_of_ticks {s : State} (h0 : s.real.crb[0] = true) (h6 : s.real.crb[6] = false)
    (h5 : s.real.crb[5] = false) (n : Nat) : amountB s n = n := by
  simp [amountB, h0, h6, h5]

/-- The timers' share of an `update`: Timer A's count, then Timer B's (R113). -/
theorem timersStep_eq_counts (n : Nat) (s : State) :
    timersStep n s = afterCountB (afterCountA s (amountA s n)) (amountB s n) := by
  rw [timersStep, timerAStep_eq]
  exact timerBStep_eq _ _ _

/-! ## An underflow -/

/-- A count of Timer A past zero leaves what the underflow's steps a to e leave: the reload overwrites the difference
(R109). -/
theorem afterCountA_of_underflow {s : State} {n : Nat} (h : counterA s < n % 65536) :
    afterCountA s n = underflow .a s := by
  have hu : underflowsAt (counterA s) n = true := decide_eq_true h
  simp [afterCountA, underflow_a, hu, countedFrom, latchA, ofNat_pairValue_low, ofNat_pairValue_high, bitsWhen]

/-- The same for Timer B. -/
theorem afterCountB_of_underflow {s : State} {n : Nat} (h : counterB s < n % 65536) :
    afterCountB s n = underflow .b s := by
  have hu : underflowsAt (counterB s) n = true := decide_eq_true h
  simp [afterCountB, underflow_b, hu, countedFrom, latchB, ofNat_pairValue_low, ofNat_pairValue_high, bitsWhen]

/-- Timer A past zero and Timer B stopped: the body is Timer A's underflow, then the baseline. -/
theorem updateBody_of_underflow_a_alone {s : State} {t : Nat} (hB : s.real.crb[0] = false)
    (hA : s.real.cra[0] = true) (hSource : s.real.cra[5] = false) (hc : counterA s < tickDelta s t % 65536) :
    updateBody t s = setLastTick t (underflow .a s) := by
  rw [updateBody, timersStep_eq_counts, amountB_of_stopped hB, afterCountB_zero, amountA_of_ticks hA hSource,
    afterCountA_of_underflow hc]
  rfl

/-- Timer B past zero and Timer A stopped: the body is Timer B's underflow, then the baseline. -/
theorem updateBody_of_underflow_b_alone {s : State} {t : Nat} (hA : s.real.cra[0] = false)
    (hB : s.real.crb[0] = true) (hSource6 : s.real.crb[6] = false) (hSource5 : s.real.crb[5] = false)
    (hc : counterB s < tickDelta s t % 65536) :
    updateBody t s = setLastTick t (underflow .b s) := by
  rw [updateBody, timersStep_eq_counts, amountA_of_stopped hA, afterCountA_zero,
    amountB_of_ticks hB hSource6 hSource5, afterCountB_of_underflow hc]
  rfl

/-- Setting a status bit, and more bits on a condition, is setting one byte of bits (R110 steps a and c). -/
theorem or_bitsWhen (x bits more : Byte) (b : Bool) :
    x ||| bits ||| bitsWhen b more = x ||| (if b then bits ||| more else bits) := by
  cases b <;> simp [bitsWhen, BitVec.or_assoc]

/-- Settles O24: the stopped timer counts nothing, so the body is the other one's underflow, and `underflow_a` and
`underflow_b` say what its steps do. -/
theorem underflowDoesStepsAToE : Obligations.UnderflowDoesStepsAToE := by
  intro s t hl ht
  rw [exec_update hl ht]
  constructor
  · intro hB hA hSource hc
    have body := updateBody_of_underflow_a_alone (s := startOperation s) hB hA hSource hc
    rw [body, underflow_a, or_bitsWhen]
    rfl
  · intro hA hB hSource6 hSource5 hc
    have body := updateBody_of_underflow_b_alone (s := startOperation s) hA hB hSource6 hSource5 hc
    rw [body, underflow_b, or_bitsWhen]
    rfl

end Sys2Proof.Machine
end

