-- ==== Sys2Proof/Proofs/Events.lean ====
section
/-! PROOF. The events of an operation (R8, R35): only the effects of `keyDown` and `update` append to the outputs: a press at
most one NMI event, an `update` at most one IRQ event for each timer (R127). -/

namespace Sys2Proof.Machine

/-- Only `keyDown` and `update` emit events. -/
theorem effect_outputs {i : Instr} (hk : ∀ k, i ≠ .keyDown k) (hu : ∀ n, i ≠ .update n) (s : State) :
    (effect i s).outputs = s.outputs := by
  cases i with
  | keyDown k => exact absurd rfl (hk k)
  | update n => exact absurd rfl (hu n)
  | pokeCra a d => exact (congrArg State.outputs (pokeControl_a d s) :)
  | pokeCrb a d => exact (congrArg State.outputs (pokeControl_b d s) :)
  | keyUp k => exact (congrArg State.outputs (keyUpBody_frame k s) :)
  | _ => rfl

/-- A key press emits nothing, or it is the restore key's and emits one NMI event (R117, R119). -/
theorem keyDownBody_outputs (k : KeyCode) (s : State) :
    (keyDownBody k s).outputs = s.outputs ∨
      ((keyDownBody k s).outputs = s.outputs ++ [.nmi] ∧ k = s.params.restore) := by
  rcases keyDownBody_cases k s with ⟨hk, h⟩ | ⟨pos, -, h⟩ | ⟨-, h⟩ <;> rw [h]
  · exact .inr ⟨emit_outputs .nmi s, hk⟩
  · exact .inl (setColumn_outputs _ _ s)
  · exact .inl rfl

/-- The IRQ events of an `update` are none, one or two: one for each timer that interrupts (R127). -/
theorem irqsOfUpdate_cases (s : State) (n : Nat) :
    irqsOfUpdate s n = [] ∨ irqsOfUpdate s n = [.irq] ∨ irqsOfUpdate s n = [.irq, .irq] := by
  rw [irqsOfUpdate]
  cases interruptsA s n <;> cases interruptsB s n
  · exact .inl rfl
  · exact .inr (.inl rfl)
  · exact .inr (.inl rfl)
  · exact .inr (.inr rfl)

/-- Settles O34: the operation's start empties the outputs, and of the effects only those of `update` and `keyDown` add to
them. -/
theorem onlyUpdateEmitsIrqAndOnlyRestoreEmitsNmi : Obligations.OnlyUpdateEmitsIrqAndOnlyRestoreEmitsNmi := by
  intro i s t h
  obtain ⟨-, rfl⟩ := exec_next h
  by_cases hu : ∃ n, i = .update n
  · obtain ⟨n, rfl⟩ := hu
    rw [effect, updateBody_eq]
    exact (irqsOfUpdate_cases (startOperation s) (n - s.lastTick)).imp_right fun irqs => .inr ⟨irqs, n, rfl⟩
  by_cases hk : ∃ k, i = .keyDown k
  · obtain ⟨k, rfl⟩ := hk
    exact (keyDownBody_outputs k (startOperation s)).imp_right fun ⟨nmi, restore⟩ => .inl ⟨nmi, restore ▸ rfl⟩
  · exact .inl (effect_outputs (not_exists.mp hk) (not_exists.mp hu) (startOperation s))

end Sys2Proof.Machine
end

