-- ==== Sys2Proof/Proofs/Forms.lean ====
section
/-! PROOF. The forms of an operation: a peek of a register, a poke of one, or a host operation. What a peek delivers and leaves,
which planes a poke writes, and which fields an effect never touches, each said once. -/

namespace Sys2Proof.Machine

/-! ## Peek, poke or host operation -/

/-- Every instruction is a peek of a register, a poke of one, or a host operation, which has no row of words (R65). -/
theorem peek_or_poke_or_host (i : Instr) :
    (∃ r a x, i = peekOf r a x) ∨ (∃ r a d, i = pokeOf r a d) ∨ tableMatch i = none := by
  cases i with
  | peekPra a x => exact .inl ⟨.pra, a, x, rfl⟩
  | peekPrb a x => exact .inl ⟨.prb, a, x, rfl⟩
  | peekDdra a x => exact .inl ⟨.ddra, a, x, rfl⟩
  | peekDdrb a x => exact .inl ⟨.ddrb, a, x, rfl⟩
  | peekTalo a x => exact .inl ⟨.talo, a, x, rfl⟩
  | peekTahi a x => exact .inl ⟨.tahi, a, x, rfl⟩
  | peekTblo a x => exact .inl ⟨.tblo, a, x, rfl⟩
  | peekTbhi a x => exact .inl ⟨.tbhi, a, x, rfl⟩
  | peekTod10 a x => exact .inl ⟨.tod10, a, x, rfl⟩
  | peekTodsec a x => exact .inl ⟨.todsec, a, x, rfl⟩
  | peekTodmin a x => exact .inl ⟨.todmin, a, x, rfl⟩
  | peekTodhr a x => exact .inl ⟨.todhr, a, x, rfl⟩
  | peekSdr a x => exact .inl ⟨.sdr, a, x, rfl⟩
  | peekIcr a x => exact .inl ⟨.icr, a, x, rfl⟩
  | peekCra a x => exact .inl ⟨.cra, a, x, rfl⟩
  | peekCrb a x => exact .inl ⟨.crb, a, x, rfl⟩
  | pokePra a d => exact .inr (.inl ⟨.pra, a, d, rfl⟩)
  | pokePrb a d => exact .inr (.inl ⟨.prb, a, d, rfl⟩)
  | pokeDdra a d => exact .inr (.inl ⟨.ddra, a, d, rfl⟩)
  | pokeDdrb a d => exact .inr (.inl ⟨.ddrb, a, d, rfl⟩)
  | pokeTalo a d => exact .inr (.inl ⟨.talo, a, d, rfl⟩)
  | pokeTahi a d => exact .inr (.inl ⟨.tahi, a, d, rfl⟩)
  | pokeTblo a d => exact .inr (.inl ⟨.tblo, a, d, rfl⟩)
  | pokeTbhi a d => exact .inr (.inl ⟨.tbhi, a, d, rfl⟩)
  | pokeTod10 a d => exact .inr (.inl ⟨.tod10, a, d, rfl⟩)
  | pokeTodsec a d => exact .inr (.inl ⟨.todsec, a, d, rfl⟩)
  | pokeTodmin a d => exact .inr (.inl ⟨.todmin, a, d, rfl⟩)
  | pokeTodhr a d => exact .inr (.inl ⟨.todhr, a, d, rfl⟩)
  | pokeSdr a d => exact .inr (.inl ⟨.sdr, a, d, rfl⟩)
  | pokeIcr a d => exact .inr (.inl ⟨.icr, a, d, rfl⟩)
  | pokeCra a d => exact .inr (.inl ⟨.cra, a, d, rfl⟩)
  | pokeCrb a d => exact .inr (.inl ⟨.crb, a, d, rfl⟩)
  | _ => exact .inr (.inr rfl)

/-- An instruction of a row with W = 0 is the peek of its register. -/
theorem exists_peekOf {i : Instr} (h : isPeek i = true) : ∃ r a x, i = peekOf r a x := by
  rcases peek_or_poke_or_host i with hpeek | ⟨r, a, d, rfl⟩ | hhost
  · exact hpeek
  · rw [isPeek, tableMatch_pokeOf] at h
    cases r <;> cases h
  · rw [isPeek, hhost] at h
    cases h

/-- An instruction of a row with W = 1 is the poke of its register. -/
theorem exists_pokeOf {i : Instr} (h : isPoke i = true) : ∃ r a d, i = pokeOf r a d := by
  rcases peek_or_poke_or_host i with ⟨r, a, x, rfl⟩ | hpoke | hhost
  · rw [isPoke, tableMatch_peekOf] at h
    cases r <;> cases h
  · exact hpoke
  · rw [isPoke, hhost] at h
    cases h

theorem peekOf_ne_init (r : Reg) (a x : Byte) : peekOf r a x ≠ .init := by
  cases r <;> exact Instr.noConfusion

theorem pokeOf_ne_init (r : Reg) (a d : Byte) : pokeOf r a d ≠ .init := by
  cases r <;> exact Instr.noConfusion

/-! ## What a peek does -/

/-- The byte that the peek of a register delivers (R73 to R88). -/
def peekByte : Reg → State → Byte
  | .prb, s => scan s
  | .icr, s => s.isr
  | .tod10, s => todValue .tod10 s
  | .todsec, s => todValue .todsec s
  | .todmin, s => todValue .todmin s
  | r, s => getReal s r

/-- What the peek of a register leaves beside the byte it delivers: a tenths read unfreezes, an hours read takes the snapshot
(R72, R81, R84). -/
def afterRead : Reg → State → State
  | .tod10, s => setTodLatched false s
  | .todhr, s => latchTod s
  | _, s => s

/-- Everything a peek can do. -/
theorem effect_peekOf (r : Reg) (a x : Byte) (s : State) :
    effect (peekOf r a x) s = deliver (peekByte r s) (afterRead r s) := by
  cases r <;> rfl

/-- A read writes the latched plane and the flag, nothing else (R72). -/
theorem afterRead_frame (r : Reg) (s : State) :
    afterRead r s = { s with latched := (afterRead r s).latched, todLatched := (afterRead r s).todLatched } := by
  cases r <;> rfl

/-! ## What a poke writes -/

/-- A control write writes the live plane (R104, R105). -/
theorem pokeControl_frame (T : Timer) (d : Byte) (s : State) :
    pokeControl T d s = { s with real := (pokeControl T d s).real } := by
  unfold pokeControl
  split <;> rfl

/-- A poke writes the two planes, nothing else (R89). -/
theorem effect_pokeOf_frame (r : Reg) (a d : Byte) (s : State) :
    effect (pokeOf r a d) s =
      { s with real := (effect (pokeOf r a d) s).real, latched := (effect (pokeOf r a d) s).latched } := by
  cases r with
  | cra => rw [pokeOf, effect, pokeControl_frame]
  | crb => rw [pokeOf, effect, pokeControl_frame]
  | _ => rfl

/-! ## The fields that only few operations write -/

/-- The latched plane after an operation: only timer byte pokes, the hours read and `init` write it (R17). -/
def latchedAfter : Instr → State → Bank
  | .pokeTalo _ d, s => { s.latched with talo := d }
  | .pokeTahi _ d, s => { s.latched with tahi := d }
  | .pokeTblo _ d, s => { s.latched with tblo := d }
  | .pokeTbhi _ d, s => { s.latched with tbhi := d }
  | .peekTodhr _ _, s => (latchTod s).latched
  | .init, s => resetLatched s.params
  | _, s => s.latched

/-- The freeze flag after an operation: only the hours read, the tenths read and `init` write it (R31). -/
def flagAfter : Instr → Bool → Bool
  | .peekTodhr _ _, _ => true
  | .peekTod10 _ _, _ => false
  | .init, _ => false
  | _, b => b

/-- The baseline after an operation: only `update` and `init` write it (R34). -/
def baselineAfter : Instr → State → Nat
  | .update t, _ => t
  | .init, s => s.params.initTick
  | _, s => s.lastTick

/-- Where the instance stands after an operation (R137). -/
def lifeAfter : Instr → Life → Life
  | .init, _ => .live
  | .destroy, _ => .ended
  | _, l => l

/-- Everything an operation can do to the latched plane, the flag, the baseline, the life, the parameters and the pending
calls. -/
theorem effect_frame (i : Instr) (s : State) :
    effect i s =
      { effect i s with
        latched := latchedAfter i s
        todLatched := flagAfter i s.todLatched
        lastTick := baselineAfter i s
        params := s.params
        life := lifeAfter i s.life
        pending := s.pending } := by
  cases i with
  | pokeCra a d => rw [effect, pokeControl_frame]; rfl
  | pokeCrb a d => rw [effect, pokeControl_frame]; rfl
  | update t => rw [effect, updateBody_eq]; rfl
  | keyDown k => rw [effect, keyDownBody_frame]; rfl
  | keyUp k => rw [effect, keyUpBody_frame]; rfl
  | _ => rfl

@[simp] theorem effect_latched (i : Instr) (s : State) : (effect i s).latched = latchedAfter i s := by
  rw [effect_frame]

@[simp] theorem effect_todLatched (i : Instr) (s : State) : (effect i s).todLatched = flagAfter i s.todLatched := by
  rw [effect_frame]

@[simp] theorem effect_lastTick (i : Instr) (s : State) : (effect i s).lastTick = baselineAfter i s := by
  rw [effect_frame]

@[simp] theorem effect_params (i : Instr) (s : State) : (effect i s).params = s.params := by
  rw [effect_frame]

@[simp] theorem effect_life (i : Instr) (s : State) : (effect i s).life = lifeAfter i s.life := by
  rw [effect_frame]

@[simp] theorem effect_pending (i : Instr) (s : State) : (effect i s).pending = s.pending := by
  rw [effect_frame]

end Sys2Proof.Machine
end

