-- ==== Sys2Proof/Proofs/Coding.lean ====
section
/-! PROOF. Decoder and encoder are inverse to each other (R56, R58, R65): a row's word has the fields it was made of, and any word
is the row's word of its own fields. What a bus operation does depends on the register alone, and for a poke on its data. -/

namespace Sys2Proof

/-! ## From an instruction and back -/

theorem encode_peekOf (r : Reg) (a x : Byte) : encode (peekOf r a x) = .bus (rowWord false r.index a x) := by
  cases r <;> rfl

theorem encode_pokeOf (r : Reg) (a d : Byte) : encode (pokeOf r a d) = .bus (rowWord true r.index a d) := by
  cases r <;> rfl

/-- A peek is well formed exactly when its address reaches its register (R58). -/
theorem wf_peekOf (r : Reg) (a x : Byte) : (peekOf r a x).wf = decide (registerOf a = r) := by
  cases r <;> exact decide_eq_decide.mpr Option.some_inj

theorem wf_pokeOf (r : Reg) (a d : Byte) : (pokeOf r a d).wf = decide (registerOf a = r) := by
  cases r <;> exact decide_eq_decide.mpr Option.some_inj

theorem decodeWord_rowWord (p : Bool) {r : Reg} {a : Byte} (d : Byte) (h : registerOf a = r) :
    decodeWord (rowWord p r.index a d) = if p then pokeOf r a d else peekOf r a d := by
  obtain ⟨hpoke, haddress, hdata⟩ := rowWord_fields p d h
  rw [decodeWord, hpoke, haddress, hdata, h]

/-- Settles O2: a peek or poke goes to its row's word, whose fields are its own; a host operation is its own request. -/
theorem decodeOfEncodeIsTheInstruction : Obligations.DecodeOfEncodeIsTheInstruction := by
  intro i hwf
  rcases Machine.peek_or_poke_or_host i with ⟨r, a, x, rfl⟩ | ⟨r, a, d, rfl⟩ | hhost
  · rw [wf_peekOf, decide_eq_true_iff] at hwf
    rw [encode_peekOf, decode, decodeWord_rowWord false x hwf]
    rfl
  · rw [wf_pokeOf, decide_eq_true_iff] at hwf
    rw [encode_pokeOf, decode, decodeWord_rowWord true d hwf]
    rfl
  · cases i with
    | update t => rfl
    | keyDown k => rfl
    | keyUp k => rfl
    | init => rfl
    | destroy => rfl
    | _ => cases hhost

/-! ## From a request and back -/

/-- A word decodes to a well-formed instruction: the address that names the register is the one it carries. -/
theorem wf_decodeWord (w : TransactionWord) : (decodeWord w).wf = true := by
  unfold decodeWord
  split
  · rw [wf_pokeOf, decide_eq_true_iff]
  · rw [wf_peekOf, decide_eq_true_iff]

theorem encode_decodeWord (w : TransactionWord) : encode (decodeWord w) = .bus w := by
  have hw := rowWord_of_fields w
  unfold decodeWord
  split
  next hpoke => rwa [encode_pokeOf, ← hpoke, Request.bus.injEq]
  next hpeek => rwa [encode_peekOf, ← Bool.eq_false_of_not_eq_true hpeek, Request.bus.injEq]

/-- Settles O3: a word is the row's word of its own fields; a host call is its own operation. -/
theorem encodeOfDecodeIsTheRequest : Obligations.EncodeOfDecodeIsTheRequest := by
  intro q
  cases q with
  | bus w => exact ⟨wf_decodeWord w, encode_decodeWord w⟩
  | _ => exact ⟨rfl, rfl⟩

/-! ## What selects nothing -/

/-- Bits 11:8 of a word are the low nibble of its address, and name the register (R58). -/
theorem registerOf_addressOf (w : TransactionWord) : registerOf (addressOf w) = Reg.ofIndex (w.extractLsb' 8 4) := by
  have nibble : (addressOf w).extractLsb' 0 4 = w.extractLsb' 8 4 := by
    apply BitVec.eq_of_getLsbD_eq
    intro b hb
    have hb8 : b < 8 := by omega
    simp [addressOf, hb, hb8]
  rw [registerOf, nibble]

/-- The address of a peek has done its work in decoding, and its data bits go nowhere (R56, R58). -/
theorem exec_peekOf_congr (r : Reg) (a x b y : Byte) (s : Machine.State) :
    Machine.exec (peekOf r a x) s = Machine.exec (peekOf r b y) s := by
  cases r <;> rfl

/-- So has the address of a poke. -/
theorem exec_pokeOf_congr (r : Reg) (a b d : Byte) (s : Machine.State) :
    Machine.exec (pokeOf r a d) s = Machine.exec (pokeOf r b d) s := by
  cases r <;> rfl

/-- Settles O5: two such words decode to peeks, or to pokes of the same data, of one register. -/
theorem mirrorAndDontCareBitsSelectNothing : Obligations.MirrorAndDontCareBitsSelectNothing := by
  intro s w v hW hindex hdata
  simp only [decodeWord, registerOf_addressOf, ← hW, hindex]
  split
  next hpoke =>
    rw [hdata hpoke]
    exact exec_pokeOf_congr _ _ _ _ s
  next => exact exec_peekOf_congr _ _ _ _ _ s

/-- Settles O1: the four words by evaluation of the decoder; the last number has bit 17. -/
theorem specWordsDecodeToTheirInstructions : Obligations.SpecWordsDecodeToTheirInstructions := by
  refine ⟨?_, ?_, ?_, ?_, ?_⟩ <;> decide

end Sys2Proof
end

