-- ==== Sys2Proof/Proofs/PeeksAndPokes.lean ====
section
/-! PROOF. What every peek and every poke has in common (R45, R47, R72, R89): what it leaves unchanged, what happens when it is
repeated at once, and that no peek reads the enable mask. -/

namespace Sys2Proof.Machine

/-! ## Peeks -/

/-- If a peek answers, the instance was live and the state is the peek's effect. -/
theorem exec_peekOf_next {r : Reg} {a x : Byte} {s t : State} (h : exec (peekOf r a x) s = .next t) :
    s.life = .live ∧ t = effect (peekOf r a x) (startOperation s) := by
  obtain ⟨hduty, ht⟩ := exec_next h
  exact ⟨live_of_dutyMet hduty (peekOf_ne_init r a x), ht⟩

/-- Settles O13: the hours read takes the snapshot, whatever the flag, and delivers the hours it copied. -/
theorem peekOfHoursTakesTheSnapshot : Obligations.PeekOfHoursTakesTheSnapshot := by
  intro s a x hl
  refine ⟨peekWordIs .todhr a x, (exec_peekOf hl .todhr a x).trans ?_⟩
  rw [peekOf, effect, peekHours_eq, latchTod_eq]
  rfl

/-- Settles O14: a peek delivers a byte, and what it leaves beside that is in the latched plane and the flag. -/
theorem peeksLeaveTheLivePlaneAlone : Obligations.PeeksLeaveTheLivePlaneAlone := by
  intro i s t hpeek h
  obtain ⟨r, a, x, rfl⟩ := exists_peekOf hpeek
  obtain ⟨-, rfl⟩ := exec_peekOf_next h
  refine ⟨?_, fun hhours => ?_, fun hhours htenths => ?_⟩
  · rw [effect_peekOf, afterRead_frame]
    exact ⟨rfl, rfl, rfl, rfl, rfl, rfl⟩
  · rw [effect_latched]
    cases r with
    | todhr => exact absurd rfl (hhours a x)
    | _ => rfl
  · rw [effect_todLatched]
    cases r with
    | todhr => exact absurd rfl (hhours a x)
    | tod10 => exact absurd rfl (htenths a x)
    | _ => rfl

/-- A peek of any register but TOD10, run again on the state it left, leaves that state: the snapshot of an hours read is the one
it took already. -/
theorem effect_peekOf_again {r : Reg} (hr : r ≠ .tod10) (a x : Byte) (s : State) :
    effect (peekOf r a x) (startOperation (effect (peekOf r a x) (startOperation s))) =
      effect (peekOf r a x) (startOperation s) := by
  cases r with
  | tod10 => exact absurd rfl hr
  | todhr => simp only [peekOf, effect, peekHours_eq, latchTod_eq]; rfl
  | _ => rfl

/-- A tenths read has cleared the flag, so the next one delivers the live byte (R81). -/
theorem effect_peekTod10_again (a x : Byte) (s : State) :
    effect (.peekTod10 a x) (startOperation (effect (.peekTod10 a x) (startOperation s))) =
      afterPeek (effect (.peekTod10 a x) (startOperation s)) s.real.tod10 := rfl

/-- Settles O15: a peek leaves its instance live, so it runs again. -/
theorem repeatedPeekDeliversTheSameByte : Obligations.RepeatedPeekDeliversTheSameByte := by
  intro i s t hpeek h
  obtain ⟨r, a, x, rfl⟩ := exists_peekOf hpeek
  obtain ⟨hl, rfl⟩ := exec_peekOf_next h
  have hlt : (effect (peekOf r a x) (startOperation s)).life = .live := by
    rw [effect_peekOf, afterRead_frame]
    exact hl
  rw [exec_peekOf hlt]
  refine ⟨fun htenths => ?_, fun b y hi => ?_⟩
  · rw [effect_peekOf_again (fun hr => htenths a x (by rw [hr]; rfl))]
  · rw [hi, effect_peekTod10_again]

/-- No peek reads the enable mask, nor writes it (R29). -/
theorem effect_peekOf_withMask (r : Reg) (a x v : Byte) (s : State) :
    effect (peekOf r a x) (startOperation (withMask v s)) = withMask v (effect (peekOf r a x) (startOperation s)) := by
  cases r <;> rfl

/-- Settles O45: the mask has no part in whether a peek runs either. -/
theorem enableMaskIsNotReadBack : Obligations.EnableMaskIsNotReadBack := by
  intro i s t v hpeek h
  obtain ⟨r, a, x, rfl⟩ := exists_peekOf hpeek
  obtain ⟨hl, rfl⟩ := exec_peekOf_next h
  rw [← effect_peekOf_withMask]
  exact exec_peekOf (s := withMask v s) hl r a x

/-! ## Pokes -/

/-- If a poke answers, the instance was live and the state is the poke's effect. -/
theorem exec_pokeOf_next {r : Reg} {a d : Byte} {s t : State} (h : exec (pokeOf r a d) s = .next t) :
    s.life = .live ∧ t = effect (pokeOf r a d) (startOperation s) := by
  obtain ⟨hduty, ht⟩ := exec_next h
  exact ⟨live_of_dutyMet hduty (pokeOf_ne_init r a d), ht⟩

/-- Settles O21: a poke writes the two planes alone. -/
theorem pokesLeaveStatusAndKeyboardAlone : Obligations.PokesLeaveStatusAndKeyboardAlone := by
  intro i s t hpoke h
  obtain ⟨r, a, d, rfl⟩ := exists_pokeOf hpoke
  obtain ⟨-, rfl⟩ := exec_pokeOf_next h
  rw [effect_pokeOf_frame]
  exact ⟨rfl, rfl, rfl, rfl, rfl, rfl, rfl⟩

/-- A second control write of the same byte finds the byte stored, and the counter reloaded if it is to be. -/
theorem pokeControl_again (T : Timer) (d : Byte) (s : State) :
    pokeControl T d (startOperation (pokeControl T d (startOperation s))) = pokeControl T d (startOperation s) := by
  cases T
  · rw [pokeControl_a, pokeControl_a]
    cases d[4] <;> rfl
  · rw [pokeControl_b, pokeControl_b]
    cases d[4] <;> rfl

/-- A poke run again on the state it left leaves that state: the two masked writes are idempotent. -/
theorem effect_pokeOf_again (r : Reg) (a d : Byte) (s : State) :
    effect (pokeOf r a d) (startOperation (effect (pokeOf r a d) (startOperation s))) =
      effect (pokeOf r a d) (startOperation s) := by
  cases r with
  | pra => exact congrArg (setReal .pra · (startOperation s)) (directionMerge_idem s.real.ddra s.real.pra d)
  | prb => exact congrArg (setReal .prb · (startOperation s)) (directionMerge_idem s.real.ddrb s.real.prb d)
  | icr => exact congrArg (setReal .icr · (startOperation s)) (maskBlend_idem s.real.icr d)
  | cra => exact pokeControl_again .a d s
  | crb => exact pokeControl_again .b d s
  | _ => rfl

/-- Settles O22: a poke leaves its instance live, so it runs again. -/
theorem repeatedPokeChangesNothingMore : Obligations.RepeatedPokeChangesNothingMore := by
  intro i s t hpoke h
  obtain ⟨r, a, d, rfl⟩ := exists_pokeOf hpoke
  obtain ⟨hl, rfl⟩ := exec_pokeOf_next h
  have hlt : (effect (pokeOf r a d) (startOperation s)).life = .live := by
    rw [effect_pokeOf_frame]
    exact hl
  rw [exec_pokeOf hlt, effect_pokeOf_again]

end Sys2Proof.Machine
end

