-- ==== Sys2Proof/Proofs/Counting.lean ====
section
/-! PROOF. What an `update` counts (R106 to R116): nothing when both amounts are 0, one per cascaded underflow, and tick by tick a
period of latch + 1. -/

namespace Sys2Proof.Machine

/-- Settles O25: the tick is checked before the body runs (R108). -/
theorem tickBelowBaselineIsRefused : Obligations.TickBelowBaselineIsRefused := by
  intro s t hl ht
  have hbreach : ¬ dutyMet (.update t) s := by
    rintro (hinit | ⟨-, htick⟩)
    · cases hinit
    · exact absurd (htick t rfl) (Nat.not_le.mpr ht)
  rw [exec_of_breach hbreach, hl, breach]

/-! ## Amounts of 0 -/

theorem amountA_of_pulsePin {s : State} (h5 : s.real.cra[5] = true) (n : Nat) : amountA s n = 0 := by
  simp [amountA, h5]

/-- Codes 01 and 11 count nothing, whatever Timer A does (R112). -/
theorem amountB_of_pulsePin {s : State} (h5 : s.real.crb[5] = true) (n : Nat) : amountB s n = 0 := by
  cases h6 : s.real.crb[6] <;> simp [amountB, h5, h6]

/-- A running cascaded Timer B counts one if Timer A underflows in the `update`, else none (R112, D12). -/
theorem amountB_of_cascade {s : State} (h0 : s.real.crb[0] = true) (h6 : s.real.crb[6] = true)
    (h5 : s.real.crb[5] = false) (n : Nat) : amountB s n = if underflowsA s n then 1 else 0 := by
  simp [amountB, h0, h6, h5]

/-- A Timer A that counts nothing does not underflow. -/
theorem underflowsA_of_amountA_zero {s : State} {n : Nat} (h : amountA s n = 0) : underflowsA s n = false := by
  rw [underflowsA, h, underflowsAt_zero]

/-- Cascaded to a Timer A that counts nothing, Timer B counts nothing. -/
theorem amountB_of_cascade_zero {s : State} {n : Nat} (hA : amountA s n = 0) (h6 : s.real.crb[6] = true) :
    amountB s n = 0 := by
  cases h5 : s.real.crb[5] with
  | true => exact amountB_of_pulsePin h5 n
  | false =>
    cases h0 : s.real.crb[0] with
    | false => exact amountB_of_stopped h0 n
    | true => rw [amountB_of_cascade h0 h6 h5, underflowsA_of_amountA_zero hA, if_neg Bool.false_ne_true]

/-- If neither timer counts, an `update` moves the baseline alone. -/
theorem updateBody_of_amounts_zero {s : State} {t : Nat} (hA : amountA s (tickDelta s t) = 0)
    (hB : amountB s (tickDelta s t) = 0) : updateBody t s = setLastTick t s := by
  rw [updateBody, timersStep_eq_counts, hA, hB, afterCountA_zero, afterCountB_zero]
  rfl

/-- Settles O26: every case makes both amounts 0. -/
theorem stoppedOrUnimplementedSourcesCountNothing : Obligations.StoppedOrUnimplementedSourcesCountNothing := by
  intro s t hl ht hA hB
  have amountA0 : amountA (startOperation s) (tickDelta s t) = 0 :=
    hA.elim (fun stopped => amountA_of_stopped stopped _) (fun pin => amountA_of_pulsePin pin _)
  have amountB0 : amountB (startOperation s) (tickDelta s t) = 0 := by
    rcases hB with stopped | pin | cascade
    · exact amountB_of_stopped stopped _
    · exact amountB_of_pulsePin pin _
    · exact amountB_of_cascade_zero amountA0 cascade
  rw [exec_update hl ht, updateBody_of_amounts_zero amountA0 amountB0]
  rfl

/-! ## The counters after an `update` -/

theorem counterA_lt (s : State) : counterA s < 65536 := pairValue_lt _ _
theorem counterB_lt (s : State) : counterB s < 65536 := pairValue_lt _ _
theorem latchA_lt (s : State) : latchA s < 65536 := pairValue_lt _ _
theorem latchB_lt (s : State) : latchB s < 65536 := pairValue_lt _ _

theorem counterA_afterUpdate (s : State) (t : Nat) :
    counterA (afterUpdate s t) = countedFrom (counterA s) (latchA s) (amountA s (t - s.lastTick)) :=
  pairValue_ofNat (countedFrom_lt _ (counterA_lt s) (latchA_lt s))

theorem counterB_afterUpdate (s : State) (t : Nat) :
    counterB (afterUpdate s t) = countedFrom (counterB s) (latchB s) (amountB s (t - s.lastTick)) :=
  pairValue_ofNat (countedFrom_lt _ (counterB_lt s) (latchB_lt s))

theorem underflowsAt_one (c : Nat) : underflowsAt c 1 = decide (c = 0) :=
  decide_eq_decide.mpr (by omega)

/-- A count of one underflows at 0, and else takes one off (R109). -/
theorem countedFrom_one (c l : Nat) : countedFrom c l 1 = if c = 0 then l else c - 1 := by
  simp [countedFrom, underflowsAt_one]

/-- Settles O27: the amount is one or none, by Timer A's underflow in this `update`. -/
theorem cascadeCountsOncePerTimerAUnderflow : Obligations.CascadeCountsOncePerTimerAUnderflow := by
  intro s t hl ht h0 h6 h5
  refine ⟨_, updateHasItsWholeEffect s t hl ht, fun hA => ?_, fun hA => ?_⟩
  · rw [counterB_afterUpdate, amountB_of_cascade h0 h6 h5, if_pos hA, countedFrom_one]
  · have amount : amountB s (t - s.lastTick) = 0 := by
      rw [amountB_of_cascade h0 h6 h5, hA, if_neg Bool.false_ne_true]
    refine ⟨by rw [counterB_afterUpdate, amount, countedFrom_zero], ?_⟩
    have noUnderflow : underflowsB s (t - s.lastTick) = false := by rw [underflowsB, amount, underflowsAt_zero]
    calc (afterUpdate s t).real.crb
        = controlAfter s.real.crb (underflowsB s (t - s.lastTick)) := rfl
      _ = s.real.crb := by rw [noUnderflow, controlAfter_false]

/-! ## The status bits after an `update` -/

theorem getElem_bitsWhen (b : Bool) (bits : Byte) {k : Nat} (hk : k < 8) :
    (bitsWhen b bits)[k] = (b && bits[k]) := by
  cases b <;> simp [bitsWhen]

/-- Bit 0 is Timer A's (R27). -/
theorem isrAfterUpdate_bit0 (s : State) (n : Nat) : (isrAfterUpdate s n)[0] = (s.isr[0] || underflowsA s n) := by
  simp [isrAfterUpdate, getElem_bitsWhen]

/-- Bit 1 is Timer B's. -/
theorem isrAfterUpdate_bit1 (s : State) (n : Nat) : (isrAfterUpdate s n)[1] = (s.isr[1] || underflowsB s n) := by
  simp [isrAfterUpdate, getElem_bitsWhen]

/-- Bit 7 is the master bit. -/
theorem isrAfterUpdate_bit7 (s : State) (n : Nat) :
    (isrAfterUpdate s n)[7] = (s.isr[7] || (interruptsA s n || interruptsB s n)) := by
  simp [isrAfterUpdate, getElem_bitsWhen]

/-- An `update` sets no other bit. -/
theorem isrAfterUpdate_unused (s : State) (n : Nat) {k : Nat} (hlow : 1 < k) (hhigh : k < 7) :
    (isrAfterUpdate s n)[k] = s.isr[k] := by
  interval_cases k <;> simp [isrAfterUpdate, getElem_bitsWhen]

/-! ## Whole periods -/

/-- Only `n mod 2^16` matters to a count (R109). -/
theorem underflowsAt_add_period (c n : Nat) : underflowsAt c (n + 65536) = underflowsAt c n := by
  rw [underflowsAt, underflowsAt, Nat.add_mod_right]

theorem countedFrom_add_period (c l n : Nat) : countedFrom c l (n + 65536) = countedFrom c l n := by
  rw [countedFrom, countedFrom, underflowsAt_add_period, Nat.add_mod_right]

/-- With another period in the delta Timer A counts another period, or nothing still. -/
theorem amountA_add_period (s : State) (n : Nat) :
    amountA s (n + 65536) = amountA s n + 65536 ∨ amountA s (n + 65536) = amountA s n := by
  unfold amountA
  split
  · exact .inl rfl
  · exact .inr rfl

theorem underflowsA_add_period (s : State) (n : Nat) : underflowsA s (n + 65536) = underflowsA s n := by
  rcases amountA_add_period s n with h | h <;> simp only [underflowsA, h, underflowsAt_add_period]

/-- So does Timer B; a cascade sees the same underflow. -/
theorem amountB_add_period (s : State) (n : Nat) :
    amountB s (n + 65536) = amountB s n + 65536 ∨ amountB s (n + 65536) = amountB s n := by
  unfold amountB
  rw [underflowsA_add_period]
  split
  · split
    · exact .inl rfl
    · exact .inr rfl
    · exact .inr rfl
  · exact .inr rfl

theorem underflowsB_add_period (s : State) (n : Nat) : underflowsB s (n + 65536) = underflowsB s n := by
  rcases amountB_add_period s n with h | h <;> simp only [underflowsB, h, underflowsAt_add_period]

theorem realAfterUpdate_add_period (s : State) (n : Nat) : realAfterUpdate s (n + 65536) = realAfterUpdate s n := by
  have countA : countedFrom (counterA s) (latchA s) (amountA s (n + 65536)) =
      countedFrom (counterA s) (latchA s) (amountA s n) := by
    rcases amountA_add_period s n with h | h <;> simp only [h, countedFrom_add_period]
  have countB : countedFrom (counterB s) (latchB s) (amountB s (n + 65536)) =
      countedFrom (counterB s) (latchB s) (amountB s n) := by
    rcases amountB_add_period s n with h | h <;> simp only [h, countedFrom_add_period]
  simp only [realAfterUpdate, countA, countB, underflowsA_add_period, underflowsB_add_period]

/-- Settles O30: the delta is a whole period larger, and every part of the effect but the baseline is the same. -/
theorem wholePeriodsOfTicksGoUncounted : Obligations.WholePeriodsOfTicksGoUncounted := by
  intro s t hl ht
  refine ⟨_, updateHasItsWholeEffect s t hl ht, ?_⟩
  have delta : t + 65536 - s.lastTick = t - s.lastTick + 65536 := by omega
  rw [updateHasItsWholeEffect s (t + 65536) hl (by omega)]
  simp only [afterUpdate, delta, realAfterUpdate_add_period, isrAfterUpdate, irqsOfUpdate, interruptsA, interruptsB,
    underflowsA_add_period, underflowsB_add_period]

/-! ## Tick by tick -/

/-- Timer A runs, on the tick source, and does not stop at an underflow. -/
structure RunsContinuously (s : State) : Prop where
  live : s.life = .live
  started : s.real.cra[0] = true
  onTicks : s.real.cra[5] = false
  continuous : s.real.cra[3] = false

/-- The state one tick later. -/
def afterTick (s : State) : State :=
  afterUpdate s (s.lastTick + 1)

theorem tickUpdates_succ {s : State} (hl : s.life = .live) (k : Nat) :
    tickUpdates (k + 1) s = tickUpdates k (afterTick s) := by
  rw [tickUpdates, updateHasItsWholeEffect s (s.lastTick + 1) hl (Nat.le_succ _)]
  rfl

/-- Tick updates one after another: the first `j`, then the rest. -/
theorem tickUpdates_add {j : Nat} {s t : State} (h : tickUpdates j s = .next t) (k : Nat) :
    tickUpdates (j + k) s = tickUpdates k t := by
  induction j generalizing s with
  | zero =>
    cases h
    rw [Nat.zero_add]
  | succ j ih =>
    rw [Nat.succ_add, tickUpdates]
    rw [tickUpdates] at h
    cases hu : exec (.update (s.lastTick + 1)) s with
    | next u =>
      rw [hu] at h
      exact ih h
    | fault f => cases f
    | refused r =>
      rw [hu] at h
      cases h

theorem amountA_of_tick {s : State} (h : RunsContinuously s) : amountA s (s.lastTick + 1 - s.lastTick) = 1 := by
  rw [amountA_of_ticks h.started h.onTicks, Nat.add_sub_cancel_left]

theorem counterA_afterTick {s : State} (h : RunsContinuously s) :
    counterA (afterTick s) = if counterA s = 0 then latchA s else counterA s - 1 := by
  rw [afterTick, counterA_afterUpdate, amountA_of_tick h, countedFrom_one]

/-- A continuous timer's control register stands through an underflow too (R110 step b). -/
theorem cra_afterTick {s : State} (h : RunsContinuously s) : (afterTick s).real.cra = s.real.cra := by
  have : controlAfter s.real.cra (underflowsA s (s.lastTick + 1 - s.lastTick)) = s.real.cra := by
    rw [controlAfter, h.continuous, Bool.and_false, if_neg Bool.false_ne_true]
  exact this

/-- Bit 0 of the status is set when Timer A underflows, and else stands (R110 step a). -/
theorem isr_bit0_afterTick {s : State} (h : RunsContinuously s) :
    (afterTick s).isr[0] = (s.isr[0] || decide (counterA s = 0)) := by
  have underflow : underflowsA s (s.lastTick + 1 - s.lastTick) = decide (counterA s = 0) := by
    rw [underflowsA, amountA_of_tick h, underflowsAt_one]
  rw [← underflow]
  exact isrAfterUpdate_bit0 s _

theorem RunsContinuously.afterTick {s : State} (h : RunsContinuously s) : RunsContinuously (afterTick s) where
  live := h.live
  started := by rw [cra_afterTick h, h.started]
  onTicks := by rw [cra_afterTick h, h.onTicks]
  continuous := by rw [cra_afterTick h, h.continuous]

/-- Down to 0 there is no underflow: `k` ticks take `k` off the counter and leave the rest of Timer A as it was. -/
theorem tickUpdates_down {s : State} (h : RunsContinuously s) {k : Nat} (hk : k ≤ counterA s) :
    ∃ t, tickUpdates k s = .next t ∧ RunsContinuously t ∧ counterA t = counterA s - k ∧ t.real.cra = s.real.cra ∧
      t.isr[0] = s.isr[0] ∧ t.latched = s.latched := by
  induction k generalizing s with
  | zero => exact ⟨s, rfl, h, rfl, rfl, rfl, rfl⟩
  | succ k ih =>
    have hpos : counterA s ≠ 0 := by omega
    have hcounter : counterA (afterTick s) = counterA s - 1 := by rw [counterA_afterTick h, if_neg hpos]
    have hisr : (afterTick s).isr[0] = s.isr[0] := by
      rw [isr_bit0_afterTick h, decide_eq_false hpos, Bool.or_false]
    obtain ⟨t, run, ht, counter, cra, isr, latched⟩ := ih h.afterTick (by omega)
    refine ⟨t, ?_, ht, ?_, ?_, ?_, latched⟩
    · rw [tickUpdates_succ h.live, run]
    · rw [counter, hcounter]
      omega
    · rw [cra, cra_afterTick h]
    · rw [isr, hisr]

/-- One tick past 0 the timer underflows and shows its latch (R110). -/
theorem tickUpdates_underflow {s : State} (h : RunsContinuously s) :
    ∃ t, tickUpdates (counterA s + 1) s = .next t ∧ RunsContinuously t ∧ counterA t = latchA s ∧
      t.real.cra = s.real.cra ∧ t.isr[0] = true ∧ t.latched = s.latched := by
  obtain ⟨z, run, hz, counter, cra, -, latched⟩ := tickUpdates_down h le_rfl
  rw [Nat.sub_self] at counter
  refine ⟨afterTick z, ?_, hz.afterTick, ?_, ?_, ?_, latched⟩
  · rw [tickUpdates_add run, tickUpdates_succ hz.live]
    rfl
  · rw [counterA_afterTick hz, if_pos counter, latchA, latched]
    rfl
  · rw [cra_afterTick hz, cra]
  · rw [isr_bit0_afterTick hz, decide_eq_true counter, Bool.or_true]

/-- With counter and latch equal, every latch + 1 ticks come back to that (R116). -/
theorem tickUpdates_periods {s : State} (h : RunsContinuously s) (heq : counterA s = latchA s) (m : Nat) :
    ∃ t, tickUpdates (m * (latchA s + 1)) s = .next t ∧ counterA t = latchA s ∧ t.latched = s.latched := by
  induction m generalizing s with
  | zero => exact ⟨s, by rw [Nat.zero_mul]; rfl, heq, rfl⟩
  | succ m ih =>
    obtain ⟨u, run, hu, counter, -, -, latched⟩ := tickUpdates_underflow h
    have hlatch : latchA u = latchA s := by rw [latchA, latched]; rfl
    obtain ⟨t, run', counter', latched'⟩ := ih hu (counter.trans hlatch.symm)
    rw [hlatch] at run' counter'
    refine ⟨t, ?_, counter', latched'.trans latched⟩
    rw [Nat.succ_mul, Nat.add_comm, ← heq, tickUpdates_add run, heq, run']

/-- Settles O28: down to 0, one tick more, and whole periods by induction on their number. -/
theorem continuousTimerUnderflowsEveryLatchPlusOneTicks :
    Obligations.ContinuousTimerUnderflowsEveryLatchPlusOneTicks := by
  intro s hl h0 h5 h3
  have h : RunsContinuously s := ⟨hl, h0, h5, h3⟩
  refine ⟨fun k hk => ?_, ?_, tickUpdates_periods h⟩
  · obtain ⟨t, run, -, counter, cra, isr, -⟩ := tickUpdates_down h hk
    exact ⟨t, run, counter, cra, isr⟩
  · obtain ⟨t, run, -, counter, cra, isr, -⟩ := tickUpdates_underflow h
    exact ⟨t, run, counter, cra, isr⟩

end Sys2Proof.Machine
end

