-- ==== Sys2Proof/Proofs/StoppedTimers.lean ====
section
/-! PROOF. A stopped timer (R106): an `update` counts nothing off it, and of the pokes only those of its own bytes and its
force-reload write its counter. -/

namespace Sys2Proof.Machine

/-- An `update` leaves a stopped timer's counter alone (R106). -/
theorem updateBody_keeps_stopped (T : Timer) {s : State} (hstop : startBit (getReal s (crReg T)) = false) (t : Nat) :
    getReal (updateBody t s) (loReg T) = getReal s (loReg T) ∧
      getReal (updateBody t s) (hiReg T) = getReal s (hiReg T) := by
  rw [updateBody_eq]
  cases T with
  | a =>
    have amount : amountA s (t - s.lastTick) = 0 := amountA_of_stopped hstop _
    simp [getReal, loReg, hiReg, realAfterUpdate, amount, countedFrom_zero, counterA, ofNat_pairValue_low,
      ofNat_pairValue_high]
  | b =>
    have amount : amountB s (t - s.lastTick) = 0 := amountB_of_stopped hstop _
    simp [getReal, loReg, hiReg, realAfterUpdate, amount, countedFrom_zero, counterB, ofNat_pairValue_low,
      ofNat_pairValue_high]

/-- A poke writes its register's live cell alone, unless it is a control write with LOAD, which reloads that timer (R89,
R104, R105). -/
theorem effect_pokeOf_real_cases (r : Reg) (a d : Byte) (s : State) :
    (∃ v, (effect (pokeOf r a d) s).real = bankSet s.real r v) ∨
      ∃ T, r = crReg T ∧ loadBit d = true ∧ effect (pokeOf r a d) s = forceReload T (setReal r d s) := by
  have control (T : Timer) :
      (∃ v, (pokeControl T d s).real = bankSet s.real (crReg T) v) ∨
        ∃ T', crReg T = crReg T' ∧ loadBit d = true ∧ pokeControl T d s = forceReload T' (setReal (crReg T) d s) := by
    rw [pokeControl]
    split
    next load => exact .inr ⟨T, rfl, load, rfl⟩
    next => exact .inl ⟨d, rfl⟩
  cases r with
  | cra => exact control .a
  | crb => exact control .b
  | _ => exact .inl ⟨_, rfl⟩

/-- A force-reload of one timer leaves the other one's counter alone. -/
theorem forceReload_keeps_other {T U : Timer} (h : T ≠ U) (d : Byte) (s : State) :
    getReal (forceReload U (setReal (crReg U) d s)) (loReg T) = getReal s (loReg T) ∧
      getReal (forceReload U (setReal (crReg U) d s)) (hiReg T) = getReal s (hiReg T) := by
  cases T <;> cases U
  · exact absurd rfl h
  · exact ⟨rfl, rfl⟩
  · exact ⟨rfl, rfl⟩
  · exact absurd rfl h

/-- A poke of neither byte of a timer, and no force-reload of it, leaves its counter alone. -/
theorem effect_pokeOf_keeps_counter (T : Timer) {r : Reg} {d : Byte} (hlo : r ≠ loReg T) (hhi : r ≠ hiReg T)
    (hload : r = crReg T → loadBit d = false) (a : Byte) (s : State) :
    getReal (effect (pokeOf r a d) s) (loReg T) = getReal s (loReg T) ∧
      getReal (effect (pokeOf r a d) s) (hiReg T) = getReal s (hiReg T) := by
  rcases effect_pokeOf_real_cases r a d s with ⟨v, hreal⟩ | ⟨U, rfl, load, heffect⟩
  · simp only [getReal, hreal]
    exact ⟨bankGet_bankSet_ne _ v hlo.symm, bankGet_bankSet_ne _ v hhi.symm⟩
  · have other : T ≠ U := by
      rintro rfl
      exact absurd (hload rfl) (by rw [load]; exact Bool.noConfusion)
    rw [heffect]
    exact forceReload_keeps_other other d s

/-- A stopped timer's counter changes only by pokes of its bytes, a force-reload or `init` (R106). -/
theorem effect_keeps_stopped (T : Timer) {i : Instr} {s : State} (hi : i ≠ .init)
    (hstop : startBit (getReal s (crReg T)) = false) (hlo : ∀ a d, i ≠ pokeOf (loReg T) a d)
    (hhi : ∀ a d, i ≠ pokeOf (hiReg T) a d) (hload : ∀ a d, i = pokeOf (crReg T) a d → loadBit d = false) :
    getReal (effect i s) (loReg T) = getReal s (loReg T) ∧ getReal (effect i s) (hiReg T) = getReal s (hiReg T) := by
  rcases peek_or_poke_or_host i with ⟨r, a, x, rfl⟩ | ⟨r, a, d, rfl⟩ | hhost
  · rw [effect_peekOf, afterRead_frame]
    exact ⟨rfl, rfl⟩
  · refine effect_pokeOf_keeps_counter T ?_ ?_ ?_ a s
    · rintro rfl
      exact hlo a d rfl
    · rintro rfl
      exact hhi a d rfl
    · rintro rfl
      exact hload a d rfl
  · cases i with
    | update t => exact updateBody_keeps_stopped T hstop t
    | keyDown k =>
      rw [effect, keyDownBody_frame]
      exact ⟨rfl, rfl⟩
    | keyUp k =>
      rw [effect, keyUpBody_frame]
      exact ⟨rfl, rfl⟩
    | init => exact absurd rfl hi
    | destroy => exact ⟨rfl, rfl⟩
    | _ => cases hhost

/-- Settles O29: the same for both timers. -/
theorem stoppedTimerHoldsItsCounter : Obligations.StoppedTimerHoldsItsCounter := by
  intro i s t h hi
  obtain ⟨-, rfl⟩ := exec_next h
  exact ⟨effect_keeps_stopped .a (s := startOperation s) hi, effect_keeps_stopped .b (s := startOperation s) hi⟩

end Sys2Proof.Machine
end

