-- ==== Sys2Proof/Proofs/Lifecycle.lean ====
section
/-! PROOF. The life of an instance and the step (R11, R49, R135 to R138): which calls run, what `init` and `destroy` leave, and
that a step is the next call's operation. -/

namespace Sys2Proof.Machine

/-! ## The step -/

theorem step_of_nothing_pending {s : State} (h : s.pending = []) : step s = .next s := by
  rw [step, h]

/-- The next call runs if it is admitted (R50). -/
theorem step_of_call {s : State} {c : Call} {rest : List Call} (h : s.pending = c :: rest) :
    step s = if admits c then exec (decode c.request) (setPending rest s) else .refused .overlappingCall := by
  rw [step, h]

/-- Settles O6: such a call is admitted. -/
theorem stepRunsTheDecodedCall : Obligations.StepRunsTheDecodedCall := by
  intro s q rest h
  exact step_of_call h

/-- Settles O7: with nothing pending there is no call to run, and an overlapping one is not admitted. -/
theorem stepHoldsTheStateOrRefusesAnOverlap : Obligations.StepHoldsTheStateOrRefusesAnOverlap := by
  intro s q rest
  exact ⟨step_of_nothing_pending, step_of_call⟩

/-! ## Which calls run -/

/-- An operation that keeps the duties leaves the instance live, or ended after `destroy` (R137). -/
theorem lifeAfter_of_dutyMet {i : Instr} {s : State} (h : dutyMet i s) :
    lifeAfter i s.life = if i = .destroy then .ended else .live := by
  cases i with
  | init => rfl
  | destroy => rfl
  | _ => exact live_of_dutyMet h Instr.noConfusion

/-- Settles O38: kept duties give the effect, a breach gives a refusal. -/
theorem dutifulCallsAlwaysRun : Obligations.DutifulCallsAlwaysRun := by
  intro i s
  refine ⟨fun h => ⟨_, exec_of_dutyMet h, ?_⟩, exec_of_not_dutyMet⟩
  rw [effect_life]
  exact lifeAfter_of_dutyMet h

/-- Settles O39: every operation but `init` looks at the life first. -/
theorem onlyInitRunsOutsideALife : Obligations.OnlyInitRunsOutsideALife := by
  intro i s hi
  rw [exec_eq_onLive hi]
  exact ⟨fun h => onLive_uninitialised h _, fun h => onLive_ended h _⟩

/-- Settles O43: no effect writes either field, and neither does the start of an operation. -/
theorem parametersAndPendingCallsAreConstant : Obligations.ParametersAndPendingCallsAreConstant := by
  intro i s t h
  obtain ⟨-, rfl⟩ := exec_next h
  exact ⟨effect_params i _, effect_pending i _⟩

/-! ## `init` and `destroy` -/

/-- Settles O40: `init` keeps the duties from any state, and its effect is `initBody`. -/
theorem initSetsEveryResetValue : Obligations.InitSetsEveryResetValue := by
  intro s
  exact exec_of_dutyMet (.inl rfl)

/-- Settles O41: the effect writes the life alone. -/
theorem destroyEndsTheInstanceAndWritesNothing : Obligations.DestroyEndsTheInstanceAndWritesNothing := by
  intro s hl
  exact exec_of_dutyMet (dutyMet_of_live hl fun _ => Instr.noConfusion)

/-- Settles O42: the values by evaluation, and `initBody` of the reset state is that state. -/
theorem resetHoldsTheNamedValues : Obligations.ResetHoldsTheNamedValues := by
  refine ⟨rfl, rfl, rfl, rfl, by decide, ?_⟩
  exact exec_of_dutyMet (.inl rfl)

end Sys2Proof.Machine
end

