-- ==== Sys2Proof/Proofs/StepInvariant.lean ====
section
/-! PROOF. The invariant of a run (R17, R27, R30, R138): `init` establishes it, every other operation keeps it clause by clause,
and a step is the next call's operation. -/

namespace Sys2Proof.Machine

/-! ## The status bits -/

/-- Bits 2 to 6 are all that `0x7C` selects. -/
theorem and_0x7C_eq_zero_iff (x : Byte) :
    x &&& 0x7C = 0 ↔ ∀ k, (hlow : 1 < k) → (hhigh : k < 7) → x[k] = false := by
  constructor
  · intro h k hlow hhigh
    have bit := congrArg (fun y : Byte => y.getLsbD k) h
    interval_cases k <;> simpa using bit
  · intro h
    apply BitVec.eq_of_getElem_eq
    intro k hk
    have mask : (0x7C : Byte)[k] = decide (1 < k ∧ k < 7) := by
      revert k
      decide
    rw [BitVec.getElem_and, mask]
    by_cases hin : 1 < k ∧ k < 7
    · simp [h k hin.1 hin.2]
    · simp [hin]

/-- Bits 0 and 1 are all that `0x03` selects. -/
theorem and_0x03_ne_zero_iff (x : Byte) : x &&& 0x03 ≠ 0 ↔ x[0] = true ∨ x[1] = true := by
  have split : x &&& 0x03 = x &&& 0x01 ||| x &&& 0x02 := by
    rw [← BitVec.and_or_distrib_left]
    rfl
  rw [split, ← and_one_ne_zero, ← and_two_ne_zero, bne_iff_ne, bne_iff_ne]
  exact BitVec.or_eq_zero_iff.not.trans not_and_or

/-- An `update` sets none of bits 2 to 6 (R27). -/
theorem isrAfterUpdate_and_0x7C {s : State} (h : s.isr &&& 0x7C = 0) (n : Nat) : isrAfterUpdate s n &&& 0x7C = 0 := by
  rw [and_0x7C_eq_zero_iff] at h ⊢
  intro k hlow hhigh
  rw [isrAfterUpdate_unused s n hlow hhigh]
  exact h k hlow hhigh

/-- An `update` sets the master bit only with an underflow bit: an interrupt is an underflow (R110). -/
theorem isrAfterUpdate_master {s : State} (h : s.isr[7] = true → s.isr &&& 0x03 ≠ 0) (n : Nat)
    (h7 : (isrAfterUpdate s n)[7] = true) : isrAfterUpdate s n &&& 0x03 ≠ 0 := by
  simp only [and_0x03_ne_zero_iff, isrAfterUpdate_bit0, isrAfterUpdate_bit1] at h ⊢
  simp only [isrAfterUpdate_bit7, interruptsA, interruptsB, Bool.or_eq_true, Bool.and_eq_true] at h7 ⊢
  rcases h7 with master | ⟨uA, -⟩ | ⟨uB, -⟩
  · exact (h master).imp .inl .inl
  · exact .inl (.inr uA)
  · exact .inr (.inr uB)

/-- Every operation but `init` keeps the two clauses on `isr`. -/
theorem effect_keeps_isr_clauses {i : Instr} (hi : i ≠ .init) {s : State}
    (h : s.isr &&& 0x7C = 0 ∧ (s.isr[7] = true → s.isr &&& 0x03 ≠ 0)) :
    (effect i s).isr &&& 0x7C = 0 ∧ ((effect i s).isr[7] = true → (effect i s).isr &&& 0x03 ≠ 0) := by
  by_cases hu : ∃ n, i = .update n
  · obtain ⟨n, rfl⟩ := hu
    obtain ⟨unused, master⟩ := h
    rw [effect, updateBody_eq]
    exact ⟨isrAfterUpdate_and_0x7C unused _, isrAfterUpdate_master master _⟩
  · rw [effect_isr hi (not_exists.mp hu)]
    exact h

/-! ## The mask, the idle latched cells, the baseline -/

/-- Every operation but `init` keeps bit 7 of the mask (R30). -/
theorem effect_icr_bit7 {i : Instr} (hi : i ≠ .init) (s : State) : (effect i s).real.icr[7] = s.real.icr[7] := by
  cases i with
  | init => exact absurd rfl hi
  | pokeIcr a d => exact maskBlend_bit7 s.real.icr d
  | pokeCra a d => rw [effect, pokeControl_a]
  | pokeCrb a d => rw [effect, pokeControl_b]
  | update t => rw [effect, updateBody_eq]; rfl
  | keyDown k => rw [effect, keyDownBody_frame]
  | keyUp k => rw [effect, keyUpBody_frame]
  | _ => rfl

/-- No operation but `init` writes a latched cell without a meaning (R17). -/
theorem idleLatchedCells_latchedAfter {i : Instr} (hi : i ≠ .init) (s : State) :
    idleLatchedCells (latchedAfter i s) = idleLatchedCells s.latched := by
  cases i with
  | init => exact absurd rfl hi
  | _ => rfl

/-- The baseline never goes back but by `init` (R138). -/
theorem le_baselineAfter {i : Instr} {s : State} (hi : i ≠ .init) (h : dutyMet i s) :
    s.lastTick ≤ baselineAfter i s := by
  obtain ⟨-, htick⟩ := h.resolve_left hi
  cases i with
  | init => exact absurd rfl hi
  | update t => exact htick t rfl
  | _ => exact le_rfl

/-! ## The invariant -/

/-- `init` establishes the invariant (R136). -/
theorem inv_initBody (s : State) : Inv (initBody s) := by
  refine .inr ⟨?_, ?_, rfl, rfl, le_rfl⟩ <;> rw [initBody_isr] <;> decide

/-- Settles O37: the reset state is what `init` leaves of it. -/
theorem resetMeetsTheStatusAndLatchInvariant : Obligations.ResetMeetsTheStatusAndLatchInvariant :=
  inv_initBody State.reset

/-- Every operation keeps the invariant. -/
theorem exec_keeps_inv {i : Instr} {s t : State} (h : exec i s = .next t) (hs : Inv s) : Inv t := by
  obtain ⟨hduty, rfl⟩ := exec_next h
  by_cases hi : i = .init
  · subst hi
    exact inv_initBody (startOperation s)
  · rcases hs with uninitialised | ⟨unused, master, mask, idle, baseline⟩
    · rw [live_of_dutyMet hduty hi] at uninitialised
      cases uninitialised
    · obtain ⟨unused', master'⟩ := effect_keeps_isr_clauses hi (s := startOperation s) ⟨unused, master⟩
      refine .inr ⟨unused', master', ?_, ?_, ?_⟩
      · rw [effect_icr_bit7 hi, effect_params]
        exact mask
      · rw [effect_latched, idleLatchedCells_latchedAfter hi, effect_params]
        exact idle
      · rw [effect_lastTick, effect_params]
        exact baseline.trans (le_baselineAfter (s := startOperation s) hi hduty)

/-- Settles O36: a step runs an operation on a state that differs in the pending calls alone, or holds. -/
theorem stepKeepsTheStatusAndLatchInvariant : Obligations.StepKeepsTheStatusAndLatchInvariant := by
  intro s t h hs
  cases hp : s.pending with
  | nil =>
    rw [step_of_nothing_pending hp] at h
    cases h
    exact hs
  | cons c rest =>
    rw [step_of_call hp] at h
    split at h
    · exact exec_keeps_inv h (show Inv (setPending rest s) from hs)
    · cases h

end Sys2Proof.Machine
end

