-- ==== Sys2Proof/Proofs/PortBData.lean ====
section
/-! PROOF. Port B's data value cannot be observed (R18, R74): blotting it out commutes with every effect, up to that value itself,
and it has no part in whether an operation runs. -/

namespace Sys2Proof.Machine

/-- An `update` does not read Port B's data. -/
theorem updateBody_withoutPrb (t : Nat) (s : State) :
    withoutPrb (updateBody t (withoutPrb s)) = withoutPrb (updateBody t s) := by
  rw [updateBody_eq, updateBody_eq]
  rfl

/-- Nor does a control write. -/
theorem pokeControl_withoutPrb (T : Timer) (d : Byte) (s : State) :
    withoutPrb (pokeControl T d (withoutPrb s)) = withoutPrb (pokeControl T d s) := by
  cases T
  · rw [pokeControl_a, pokeControl_a]
    rfl
  · rw [pokeControl_b, pokeControl_b]
    rfl

/-- A key press goes by the table and the matrix alone. -/
theorem keyDownBody_withoutPrb (k : KeyCode) (s : State) :
    withoutPrb (keyDownBody k (withoutPrb s)) = withoutPrb (keyDownBody k s) := by
  change withoutPrb (keyDownOf (keyPosition s.params) s.params.restore k (withoutPrb s)) = _
  unfold keyDownBody keyDownOf
  split
  · rfl
  · cases keyPosition s.params k <;> rfl

/-- So does a release. -/
theorem keyUpBody_withoutPrb (k : KeyCode) (s : State) :
    withoutPrb (keyUpBody k (withoutPrb s)) = withoutPrb (keyUpBody k s) := by
  change withoutPrb (keyUpOf (keyPosition s.params) s.params.restore k (withoutPrb s)) = _
  unfold keyUpBody keyUpOf
  split
  · rfl
  · cases keyPosition s.params k <;> rfl

/-- The effect of an operation, but for Port B's data, does not depend on that data. -/
theorem effect_withoutPrb (i : Instr) (s : State) :
    withoutPrb (effect i (withoutPrb s)) = withoutPrb (effect i s) := by
  cases i with
  | pokeCra a d => exact pokeControl_withoutPrb .a d s
  | pokeCrb a d => exact pokeControl_withoutPrb .b d s
  | update t => exact updateBody_withoutPrb t s
  | keyDown k => exact keyDownBody_withoutPrb k s
  | keyUp k => exact keyUpBody_withoutPrb k s
  | _ => rfl

/-! ## States that differ in Port B's data alone -/

/-- Two such states have the same life, baseline and pending calls: everything that decides whether a call runs. -/
theorem same_of_withoutPrb_eq {s t : State} (h : withoutPrb s = withoutPrb t) :
    s.life = t.life ∧ s.lastTick = t.lastTick ∧ s.pending = t.pending := by
  have life := congrArg State.life h
  have baseline := congrArg State.lastTick h
  have pending := congrArg State.pending h
  exact ⟨life, baseline, pending⟩

/-- An operation answers alike in two such states. -/
theorem exec_of_withoutPrb_eq {s t : State} (h : withoutPrb s = withoutPrb t) (i : Instr) :
    (∀ u, exec i s = .next u → ∃ v, exec i t = .next v ∧ withoutPrb u = withoutPrb v) ∧
      (∀ r, exec i s = .refused r → exec i t = .refused r) := by
  obtain ⟨life, baseline, -⟩ := same_of_withoutPrb_eq h
  have duty : dutyMet i s ↔ dutyMet i t := by rw [dutyMet, dutyMet, life, baseline]
  by_cases hd : dutyMet i s
  · have start : withoutPrb (startOperation s) = withoutPrb (startOperation t) := congrArg startOperation h
    have same : withoutPrb (effect i (startOperation s)) = withoutPrb (effect i (startOperation t)) := by
      rw [← effect_withoutPrb, start, effect_withoutPrb]
    rw [exec_of_dutyMet hd, exec_of_dutyMet (duty.mp hd)]
    exact ⟨fun u hu => by cases hu; exact ⟨_, rfl, same⟩, fun r hr => by cases hr⟩
  · rw [exec_of_breach hd, exec_of_breach (mt duty.mpr hd), life]
    exact ⟨fun u hu => (by cases hu), fun r hr => hr⟩

/-- Settles O44: the same call is next in both states, and its operation answers alike. -/
theorem portBDataIsUnobservable : Obligations.PortBDataIsUnobservable := by
  intro s t h
  obtain ⟨-, -, pending⟩ := same_of_withoutPrb_eq h
  cases hp : s.pending with
  | nil =>
    rw [step_of_nothing_pending hp, step_of_nothing_pending (pending ▸ hp)]
    exact ⟨fun u hu => by cases hu; exact ⟨t, rfl, h⟩, fun r hr => by cases hr⟩
  | cons c rest =>
    have called : withoutPrb (setPending rest s) = withoutPrb (setPending rest t) := congrArg (setPending rest) h
    rw [step_of_call hp, step_of_call (pending ▸ hp)]
    cases admits c with
    | true => exact exec_of_withoutPrb_eq called (decode c.request)
    | false => exact ⟨fun u hu => (by cases hu), fun r hr => hr⟩

end Sys2Proof.Machine
end

