-- ==== Sys2Proof/Proofs/FrozenTod.lean ====
section
/-! PROOF. A frozen time of day (R31, R81 to R84): only the hours read, the tenths read and `init` write the flag or a latched TOD
cell, so a sequence without them keeps both. -/

namespace Sys2Proof.Machine

/-- What every operation of a sequence keeps, the sequence keeps. -/
theorem execAll_keeps {P : State → Prop} {is : List Instr}
    (keeps : ∀ i ∈ is, ∀ s t, exec i s = .next t → P s → P t) {s t : State} (h : execAll is s = .next t) (hs : P s) :
    P t := by
  induction is generalizing s with
  | nil =>
    cases h
    exact hs
  | cons i is ih =>
    rw [execAll] at h
    cases hu : exec i s with
    | next u =>
      rw [hu] at h
      exact ih (fun j hj => keeps j (List.mem_cons_of_mem i hj)) h (keeps i List.mem_cons_self s u hu hs)
    | fault f => cases f
    | refused r =>
      rw [hu] at h
      cases h

/-- The time-of-day cells of a plane, tenths first. -/
def todCells (b : Bank) : List Byte :=
  [b.tod10, b.todsec, b.todmin, b.todhr]

/-- The flag is set, and the latched TOD cells are those of a snapshot. -/
def FrozenAt (snapshot : List Byte) (s : State) : Prop :=
  s.todLatched = true ∧ todCells s.latched = snapshot

theorem flagAfter_of_no_tod_read {i : Instr} (hinit : i ≠ .init) (htenths : ∀ a x, i ≠ .peekTod10 a x)
    (hhours : ∀ a x, i ≠ .peekTodhr a x) (b : Bool) : flagAfter i b = b := by
  cases i with
  | init => exact absurd rfl hinit
  | peekTod10 a x => exact absurd rfl (htenths a x)
  | peekTodhr a x => exact absurd rfl (hhours a x)
  | _ => rfl

theorem todCells_latchedAfter {i : Instr} (hinit : i ≠ .init) (hhours : ∀ a x, i ≠ .peekTodhr a x) (s : State) :
    todCells (latchedAfter i s) = todCells s.latched := by
  cases i with
  | init => exact absurd rfl hinit
  | peekTodhr a x => exact absurd rfl (hhours a x)
  | _ => rfl

/-- An operation other than `init`, the tenths read and the hours read keeps a frozen time of day. -/
theorem exec_keeps_frozenAt {snapshot : List Byte} {i : Instr}
    (hi : i ≠ .init ∧ (∀ a x, i ≠ .peekTod10 a x) ∧ (∀ a x, i ≠ .peekTodhr a x)) (s t : State)
    (h : exec i s = .next t) (hs : FrozenAt snapshot s) : FrozenAt snapshot t := by
  obtain ⟨hinit, htenths, hhours⟩ := hi
  obtain ⟨-, rfl⟩ := exec_next h
  constructor
  · rw [effect_todLatched, flagAfter_of_no_tod_read hinit htenths hhours]
    exact hs.1
  · rw [effect_latched, todCells_latchedAfter hinit hhours]
    exact hs.2

/-- Settles O46: the snapshot is kept through the sequence, and the three reads go by the flag. -/
theorem todSnapshotStandsUntilTenthsAreRead : Obligations.TodSnapshotStandsUntilTenthsAreRead := by
  intro is s t hno hflag h
  have frozen : FrozenAt (todCells s.latched) t :=
    execAll_keeps (fun i hi => exec_keeps_frozenAt (hno i hi)) h ⟨hflag, rfl⟩
  obtain ⟨flag, cells⟩ := frozen
  simp only [todCells, List.cons.injEq, and_true] at cells
  obtain ⟨tenths, seconds, minutes, hours⟩ := cells
  refine ⟨flag, tenths, seconds, minutes, hours, fun hl a x => ?_⟩
  obtain ⟨⟨-, readSeconds⟩, -, readMinutes⟩ := peekOfSecondsAndMinutesFollowsTheFlag t a x hl
  obtain ⟨-, readTenths⟩ := peekOfTenthsDeliversThenUnfreezes t a x hl
  rw [flag, if_pos rfl] at readSeconds readMinutes readTenths
  rw [seconds] at readSeconds
  rw [minutes] at readMinutes
  rw [tenths] at readTenths
  exact ⟨readMinutes, readSeconds, _, readTenths, rfl⟩

end Sys2Proof.Machine
end

