-- ==== Sys2Proof/Proofs/Keyboard.lean ====
section
/-! PROOF. The keyboard (R117 to R121): what the press and the release of a key leave, that a pressed key shows in a scan of its
column, and that the keys serve any code type, table and restore code (R6). -/

namespace Sys2Proof.Machine

/-! ## Press and release -/

/-- On a live instance a press runs. -/
theorem exec_keyDown {s : State} (hl : s.life = .live) (k : KeyCode) :
    exec (.keyDown k) s = .next (keyDownBody k (startOperation s)) :=
  exec_of_dutyMet (dutyMet_of_live hl fun _ => Instr.noConfusion)

/-- On a live instance a release runs. -/
theorem exec_keyUp {s : State} (hl : s.life = .live) (k : KeyCode) :
    exec (.keyUp k) s = .next (keyUpBody k (startOperation s)) :=
  exec_of_dutyMet (dutyMet_of_live hl fun _ => Instr.noConfusion)

/-- Settles O31: the key is in the table and not the restore key, so each body writes its column. -/
theorem keysOfTheTableMoveTheirRowBits : Obligations.KeysOfTheTableMoveTheirRowBits := by
  intro s k c m hl hk hp
  rw [exec_keyDown hl, exec_keyUp hl, keyDownBody_mapped (s := startOperation s) hk hp,
    keyUpBody_mapped (s := startOperation s) hk hp]
  exact ⟨rfl, rfl⟩

/-- Settles O32: the restore code is looked at before the table (R119), and neither body writes for an unknown code. -/
theorem restoreAndUnknownKeysLeaveTheMatrixAlone : Obligations.RestoreAndUnknownKeysLeaveTheMatrixAlone := by
  intro s k hl
  refine ⟨?_, ?_, fun hk hp => ?_⟩
  · exact (exec_keyDown hl _).trans (congrArg _ (keyDownBody_restore (startOperation s)))
  · exact (exec_keyUp hl _).trans (congrArg _ (keyUpBody_restore (startOperation s)))
  · rw [exec_keyDown hl, exec_keyUp hl, keyDownBody_unknown (s := startOperation s) hk hp,
      keyUpBody_unknown (s := startOperation s) hk hp]
    exact ⟨rfl, rfl⟩

/-! ## A pressed key in a scan -/

/-- The bit of a column is the one bit that is 0 in the byte that drives it alone. -/
theorem getLsbD_not_shift (c i : Fin 8) : (~~~(1#8 <<< c.val) : Byte).getLsbD i = decide (i ≠ c) := by
  revert c i
  decide

/-- With all of Port A outputs and one bit 0, that bit's column is the one selected (R120). -/
theorem columnSelected_of_driven_alone {s : State} {c : Fin 8} (hddra : s.real.ddra = 0xFF)
    (hpra : s.real.pra = ~~~(1#8 <<< c.val)) (i : Fin 8) : columnSelected s i = true ↔ i = c := by
  have output : (0xFF : Byte).getLsbD i = true := by
    revert i
    decide
  rw [columnSelected_iff, hddra, hpra, getLsbD_not_shift, output, decide_eq_false_iff_not, not_not]
  exact and_iff_right rfl

/-- Then the scan is that column's bitmap. -/
theorem scan_of_driven_alone {s : State} {c : Fin 8} (hddra : s.real.ddra = 0xFF)
    (hpra : s.real.pra = ~~~(1#8 <<< c.val)) : scan s = s.kbd[c] := by
  apply BitVec.eq_of_getLsbD_eq
  intro r hr
  simp only [scan_bit s hr, columnSelected_of_driven_alone hddra hpra, forall_eq, Bool.decide_eq_true]

/-- A live instance that drives alone the column in which its table has the key. -/
structure DrivesColumnOf (k : KeyCode) (c : Fin 8) (m : Byte) (s : State) : Prop where
  live : s.life = .live
  notRestore : k ≠ s.params.restore
  position : keyPosition s.params k = some ⟨c, m⟩
  ddra : s.real.ddra = 0xFF
  pra : s.real.pra = ~~~(1#8 <<< c.val)

section
variable {k : KeyCode} {c : Fin 8} {m : Byte} {s : State}

/-- A press clears the key's row bits in the column and leaves it driven alone. -/
theorem DrivesColumnOf.press (h : DrivesColumnOf k c m s) :
    ∃ t, exec (.keyDown k) s = .next t ∧ DrivesColumnOf k c m t ∧ t.kbd[c] = s.kbd[c] &&& ~~~m :=
  ⟨_, (keysOfTheTableMoveTheirRowBits s k c m h.live h.notRestore h.position).1,
    ⟨h.live, h.notRestore, h.position, h.ddra, h.pra⟩, Vector.getElem_set_self _⟩

/-- A release sets them. -/
theorem DrivesColumnOf.release (h : DrivesColumnOf k c m s) :
    ∃ t, exec (.keyUp k) s = .next t ∧ DrivesColumnOf k c m t ∧ t.kbd[c] = s.kbd[c] ||| m :=
  ⟨_, (keysOfTheTableMoveTheirRowBits s k c m h.live h.notRestore h.position).2,
    ⟨h.live, h.notRestore, h.position, h.ddra, h.pra⟩, Vector.getElem_set_self _⟩

/-- A read of Port B delivers the column's bitmap and leaves it as it was (R74). -/
theorem DrivesColumnOf.read (h : DrivesColumnOf k c m s) (a x : Byte) :
    ∃ t, exec (.peekPrb a x) s = .next t ∧ DrivesColumnOf k c m t ∧ t.kbd[c] = s.kbd[c] ∧ t.result = some s.kbd[c] :=
  ⟨afterPeek s (scan s), exec_peekOf h.live .prb a x, ⟨h.live, h.notRestore, h.position, h.ddra, h.pra⟩, rfl,
    congrArg some (scan_of_driven_alone h.ddra h.pra)⟩

end

/-- Settles O33: each read delivers the column's bitmap, which the key alone has moved. -/
theorem pressedKeyShowsInItsColumn : Obligations.PressedKeyShowsInItsColumn := by
  intro s k c m a x hl hk hp hddra hpra hreleased
  have hs : DrivesColumnOf k c m s := ⟨hl, hk, hp, hddra, hpra⟩
  obtain ⟨t, press, ht, tColumn⟩ := hs.press
  obtain ⟨u, read, hu, uColumn, uResult⟩ := ht.read a x
  obtain ⟨v, release, hv, vColumn⟩ := hu.release
  obtain ⟨w, readAgain, -, -, wResult⟩ := hv.read a x
  have pressed : (0xFF : Byte) &&& ~~~m = ~~~m := BitVec.allOnes_and
  have released : ~~~m ||| m = (0xFF : Byte) := BitVec.not_or_self m
  rw [hreleased, pressed] at tColumn
  refine ⟨t, u, v, w, press, read, ?_, release, readAgain, ?_⟩
  · rw [uResult, tColumn]
  · rw [wResult, vColumn, uColumn, tColumn, released]

/-! ## Any code type, table and restore code -/

theorem keyPosition_of_listed {p : Params} {es : List (KeyCode × KeyPosition)} (h : p.keyTable = .listed es)
    (k : KeyCode) : keyPosition p k = es.lookup k := by
  rw [keyPosition, h]

/-- A listed table that gives the codes `ks` of a type numbered by `code` the positions that `table` gives them. -/
noncomputable def tableFor {K : Type} (code : K → KeyCode) (table : K → Option KeyPosition) (ks : List K) : KeyTable :=
  .listed (entriesOf (Function.extend code table fun _ => none) (ks.map code))

theorem keyPosition_tableFor {K : Type} {code : K → KeyCode} (hc : Function.Injective code)
    (table : K → Option KeyPosition) {ks : List K} {k : K} (hk : k ∈ ks) {p : Params}
    (hp : p.keyTable = tableFor code table ks) : keyPosition p (code k) = table k := by
  rw [keyPosition_of_listed hp, lookup_entriesOf, if_pos (List.mem_map_of_mem hk), hc.extend_apply]

/-- Settles O48: with that table a code's key does what its position in `table` says, as any key does. -/
theorem keysWorkForAnyCodeTypeTableAndRestoreCode : Obligations.KeysWorkForAnyCodeTypeTableAndRestoreCode := by
  intro K code table restore ks hc
  refine ⟨tableFor code table ks, fun s hl htable hrestore k hk => ?_⟩
  have position : keyPosition s.params (code k) = table k := keyPosition_tableFor hc table hk htable
  have notRestore (h : k ≠ restore) : code k ≠ s.params.restore := by
    rw [hrestore]
    exact hc.ne h
  obtain ⟨restoreDown, restoreUp, unknown⟩ := restoreAndUnknownKeysLeaveTheMatrixAlone s (code k) hl
  refine ⟨?_, fun h c m hm => ?_, fun h hnone => ?_⟩
  · rintro rfl
    rw [← hrestore]
    exact ⟨restoreDown, restoreUp⟩
  · exact keysOfTheTableMoveTheirRowBits s (code k) c m hl (notRestore h) (position.trans hm)
  · exact unknown (notRestore h) (position.trans hnone)

end Sys2Proof.Machine
end

