-- ==== Sys2Proof/Proofs/PseudoInstructions.lean ====
section
/-! PROOF. The pseudo-instructions that write (R71): each is a poke or two, and what a poke leaves is known. -/

namespace Sys2Proof.Machine

theorem decode_pokeRequest (r : Reg) (d : Byte) : decode (pokeRequest r.address d) = pokeOf r r.address d := by
  rw [pokeRequest, decode, decodeWord_packWord, registerOf_address]
  rfl

/-- A sequence whose first operation runs goes on from the state it left. -/
theorem execAll_cons_of_next {i : Instr} {s t : State} (h : exec i s = .next t) (is : List Instr) :
    execAll (i :: is) s = execAll is t := by
  rw [execAll, h]

/-- A line that is one poke. -/
theorem runLine_of_poke {l : AsmLine} {r : Reg} {d : Byte} (h : l.assemble = [pokeRequest r.address d]) {s : State}
    (hl : s.life = .live) : runLine l s = .next (effect (pokeOf r r.address d) (startOperation s)) := by
  rw [runLine, h, List.map_singleton, decode_pokeRequest, execAll_cons_of_next (exec_pokeOf hl r r.address d)]
  rfl

/-- A line that is two pokes. -/
theorem runLine_of_two_pokes {l : AsmLine} {r q : Reg} {d e : Byte}
    (h : l.assemble = [pokeRequest r.address d, pokeRequest q.address e]) {s : State} (hl : s.life = .live) :
    runLine l s =
      .next (effect (pokeOf q q.address e) (startOperation (effect (pokeOf r r.address d) (startOperation s)))) := by
  have hlt : (effect (pokeOf r r.address d) (startOperation s)).life = .live := by
    rw [effect_pokeOf_frame]
    exact hl
  rw [runLine, h, List.map_cons, List.map_singleton, decode_pokeRequest, decode_pokeRequest,
    execAll_cons_of_next (exec_pokeOf hl r r.address d), execAll_cons_of_next (exec_pokeOf hlt q q.address e)]
  rfl

/-- A 16-bit value is the value of its two bytes. -/
theorem pairValue_bytes (v : Half) : pairValue (v.extractLsb' 8 8) (v.extractLsb' 0 8) = v.toNat := by
  change pairValue (highByte v) (lowByte v) = _
  rw [highByte_eq, lowByte_eq, pairValue_ofNat v.isLt]

/-! ## The mask -/

/-- Bit 7 of a byte is set from 0x80 on. -/
theorem bit7_eq_decide (x : Byte) : x[7] = decide (0x80 ≤ x.toNat) := by
  have := x.isLt
  rw [← BitVec.getLsbD_eq_getElem, BitVec.getLsbD, Nat.testBit_eq_decide_div_mod_eq]
  exact decide_eq_decide.mpr (by omega)

/-- The select bits of a byte are its value modulo 0x80. -/
theorem toNat_and_0x7F (x : Byte) : (x &&& 0x7F).toNat = x.toNat % 0x80 :=
  Nat.and_two_pow_sub_one_eq_mod x.toNat 7

theorem toNat_fill_add {m : Byte} (h : m.toNat ≤ 0x7F) : (0x80 + m).toNat = 0x80 + m.toNat := by
  rw [BitVec.toNat_add]
  exact Nat.mod_eq_of_lt (show 0x80 + m.toNat < 256 by omega)

/-- With the fill bit the blend sets the selected bits (R60, R103). -/
theorem maskBlend_fill (old : Byte) {m : Byte} (h : m.toNat ≤ 0x7F) : maskBlend old (0x80 + m) = old ||| m := by
  have fill : (0x80 + m)[7] = true := by
    rw [bit7_eq_decide, toNat_fill_add h]
    exact decide_eq_true (Nat.le_add_right _ _)
  have select : (0x80 + m) &&& 0x7F = m := by
    apply BitVec.eq_of_toNat_eq
    rw [toNat_and_0x7F, toNat_fill_add h]
    omega
  rw [maskBlend, fill, select, if_pos rfl]

/-- Without it the blend clears them. -/
theorem maskBlend_clear (old : Byte) {m : Byte} (h : m.toNat ≤ 0x7F) : maskBlend old m = old &&& ~~~m := by
  have fill : m[7] = false := by
    rw [bit7_eq_decide]
    exact decide_eq_false (by omega)
  have select : m &&& 0x7F = m := by
    apply BitVec.eq_of_toNat_eq
    rw [toNat_and_0x7F]
    omega
  rw [maskBlend, fill, select, if_neg Bool.false_ne_true]

/-- Under a direction of all outputs the merge is the new byte (R90). -/
theorem directionMerge_outputs (old d : Byte) : directionMerge 0xFF old d = d := by
  have keeps : d &&& 0xFF = d := BitVec.and_allOnes
  have drops : old &&& ~~~(0xFF : Byte) = 0 := BitVec.and_zero
  rw [directionMerge, keeps, drops]
  exact BitVec.or_zero

/-- Settles O47: two pokes write a timer's bytes to both planes, and one poke writes the mask, or Port A. -/
theorem writingPseudoInstructionsDoWhatTheyName : Obligations.WritingPseudoInstructionsDoWhatTheyName := by
  intro s v m c hl
  refine ⟨⟨_, runLine_of_two_pokes (r := .talo) (q := .tahi) rfl hl, pairValue_bytes v, pairValue_bytes v, rfl, rfl⟩,
    ⟨_, runLine_of_two_pokes (r := .tblo) (q := .tbhi) rfl hl, pairValue_bytes v, pairValue_bytes v, rfl, rfl⟩,
    fun hm => ⟨?_, ?_⟩, fun hddra => ⟨_, runLine_of_poke (r := .pra) rfl hl, fun i => ?_⟩⟩
  · rw [runLine_of_poke (r := .icr) rfl hl, ← maskBlend_fill s.real.icr hm]
    rfl
  · rw [runLine_of_poke (r := .icr) rfl hl, ← maskBlend_clear s.real.icr hm]
    rfl
  · change (directionMerge s.real.ddra s.real.pra (~~~(1#8 <<< c.val))).getLsbD i = false ↔ i = c
    rw [hddra, directionMerge_outputs, getLsbD_not_shift, decide_eq_false_iff_not, not_not]

end Sys2Proof.Machine
end
